-- ==== Sys2Proof/Word.lean ====
section
/-! DEFINITION. Words, digits and fixed-length digit arrays (spec/00_scope.md R7, R9, R10; spec/10_state.md R20-R22).

A value of the hardware is an array of 32-bit digits, index 0 the MOST significant. A stored digit is
exactly 32 bits (R22), so `BitVec 32`; wider quantities exist only inside the arithmetic of `Machine/`. -/

namespace Sys2Proof

/-- One stored digit: exactly 32 bits (R20, R22). -/
abbrev Digit := BitVec 32

/-- A command word, the data of a host write to `CMD` (R61). -/
abbrev Word := BitVec 32

/-- A host word address, 12 bits (R40). -/
abbrev Addr := BitVec 12

/-- `n` slots holding one `α` each (R15: "slot" is one array position). The length is fixed and never
changes (R21 (b)), so the list is paired with the proof of it once. -/
structure Slots (α : Type) (n : Nat) where
  list : List α
  size : list.length = n
deriving DecidableEq, Repr

namespace Slots

variable {α : Type} {n : Nat}

/-- The content of slot `i`. -/
def get (v : Slots α n) (i : Fin n) : α :=
  v.list[i.val]'(by rw [v.size]; exact i.isLt)

/-- `v` with slot `i` holding `x`. -/
def set (v : Slots α n) (i : Fin n) (x : α) : Slots α n :=
  ⟨v.list.set i.val x, by rw [List.length_set, v.size]⟩

/-- Every slot holds `x`. -/
def fill (n : Nat) (x : α) : Slots α n :=
  ⟨List.replicate n x, List.length_replicate⟩

end Slots

/-- A value of `n` digits, index 0 the most significant (R9, R20). -/
abbrev Digits (n : Nat) := Slots Digit n

/-- A narrow value, SROM's `FixedWidthUint(2048)`: 64 digits (R7, R20). -/
abbrev Narrow := Digits 64

/-- A wide value, SROM's `FixedWidthUint(4096)`: 128 digits (R7, R20). -/
abbrev Wide := Digits 128

/-- The magnitude of a list of digits, most significant first: each digit at its place value (R9). -/
def listVal : List Digit → Nat
  | [] => 0
  | d :: ds => d.toNat * 2 ^ (32 * ds.length) + listVal ds

/-- `val(v)` of R9. -/
def val {n : Nat} (v : Digits n) : Nat := listVal v.list

/-- The `n` digits of `x`, most significant first: digit `i` is `floor(x / 2^(32*(n-1-i))) mod 2^32` (R9). -/
def digitList : Nat → Nat → List Digit
  | 0, _ => []
  | n + 1, x => BitVec.ofNat 32 (x / 2 ^ (32 * n)) :: digitList n x

theorem digitList_length (n x : Nat) : (digitList n x).length = n := by
  induction n with
  | zero => rfl
  | succ n ih => simp [digitList, ih]

/-- `digits_n(x)` of R9. -/
def digitsOf (n x : Nat) : Digits n := ⟨digitList n x, digitList_length n x⟩

/-- `zero(n)` of R9: every digit 0. -/
def zero (n : Nat) : Digits n := Slots.fill n 0

end Sys2Proof
end

