-- ==== Sys2Proof/Config.lean ====
section
/-! DEFINITION. What this spec fixes as a parameter, and the free values (spec/00_scope.md R8,
spec/92_eei_decisions.md, spec/93_implementation_defined.md U1).

Fixed by literal types elsewhere, not repeated here: `DIGIT_BITS` 32, `NDIG` 64, `WDIG` 128 (`Word.lean`),
`NREG_N` 4 and `NREG_W` 4 (`Syntax.lean`: the masks of R63 and the addresses of R42 are written for 4),
`WADDR_BITS` 12, `CMD_BITS` 32 (`Word.lean`). `PLATFORM_BYTE_ORDER` is a parameter of a bridge outside
the block and no rule depends on it (R44). -/

namespace Sys2Proof.Config

/-- `HAS_SUBW` (R8, R68): whether the reserved opcodes 0x08 `SUBW` and 0x09 `CMPW` exist. -/
def hasSubw : Bool := false

/-- `ENCODE_PAD_FIRST_GROUP` (R8, R83; host codec only). -/
def encodePadFirstGroup : Bool := true

/-- `HEX_UPPER` (R8, R84; host codec only). -/
def hexUpper : Bool := false

/-- FREE VALUE (assumption 1). What a read of a digit that nothing has written since reset answers:
"an arbitrary 32-bit value that may differ between two reads" (R34, U1). The first argument is the
number of the read (the model's counter `State.draws`), the second the digit's index in its register.
It has no body: nothing can be proved of its value. -/
opaque freeDigit : Nat → Nat → Digit

end Sys2Proof.Config
end

