-- ==== Sys2Proof/Syntax.lean ====
section
/-! DEFINITION. The seven commands (spec/30_encoding.md R60, R63). One constructor per row of spec/opcode_table.json. -/

namespace Sys2Proof

/-- The number of a narrow register, `N0..N3` (R23). -/
abbrev NReg := Fin 4

/-- The number of a wide register, `W0..W3` (R25). -/
abbrev WReg := Fin 4

/-- A command. Which file a register number names is fixed by the opcode and the operand's position
(R61, R63), so it is fixed by the constructor. -/
inductive Instr where
  /-- `ADD Nd, Na, Nb` (R97). -/
  | add (rd ra rb : NReg)
  /-- `ADDW Wd, Wa, Wb` (R98). -/
  | addw (rd ra rb : WReg)
  /-- `SUB Nd, Na, Nb` (R107). -/
  | sub (rd ra rb : NReg)
  /-- `CMP Na, Nb` (R92). -/
  | cmp (ra rb : NReg)
  /-- `MULD Wd, Na, Nb[k]` (R115); `k` is a digit index, 0 the most significant (R65). -/
  | muld (rd : WReg) (ra rb : NReg) (k : Fin 64)
  /-- `SHLD Wd, Wa, p` (R122); `p` is a count of digit slots (R66). -/
  | shld (rd ra : WReg) (p : Fin 128)
  /-- `MUL Wd, Na, Nb` (R130). -/
  | mul (rd : WReg) (ra rb : NReg)
deriving DecidableEq, Repr

end Sys2Proof
end

