-- ==== Sys2Proof/Machine/State.lean ====
section
/-! DEFINITION. The state of the block (spec/10_state.md R23-R34), the host's events and the responses
(spec/20_memory.md R41, spec/60_exceptions.md R141), faults, refusals and reset (spec/70 R160). -/

namespace Sys2Proof.Machine

/-- The three causes of an error response (R141). -/
inductive ErrCause where
  /-- Code 1 `Unmapped`: the word address is in no row of R42. -/
  | unmapped
  /-- Code 2 `AccessKind`: a read of `CMD` or a write of `STATUS` (R142). -/
  | accessKind
  /-- Code 3 `IllegalCommand`: the word written to `CMD` is not legal (R143). -/
  | illegalCommand
deriving DecidableEq, Repr

/-- The response of one host access (R41): `Ok` with data for a read, `Ok` for a write, or `Err`. -/
inductive Response where
  | okData (d : Digit)
  | ok
  | err (c : ErrCause)
deriving DecidableEq, Repr

/-- What the outside world can do to the block: a host access (R12, R41), or the reset line (R160). -/
inductive Event where
  | read (a : Addr)
  | write (a : Addr) (v : Digit)
  | reset
deriving DecidableEq, Repr

/-- Why a run stops with a fault. `step` raises none: no legal command can fault (R140), and after an
`Err` response "the hardware itself continues" (R144). -/
inductive Fault where
  /-- Raised by `Safety.strictStep` only, the reading R144 advises for claims about a program: the access
  responded `Err`. Safe: it stops where the hardware goes on. -/
  | errResponse (c : ErrCause)
deriving DecidableEq, Repr

/-- Why an instruction has no meaning in the model. -/
inductive Refusal where
  /-- Raised by an arm of `exec` whose instruction has no meaning yet: no arm is left so. Safe. -/
  | notModelled (mnemonic : String)
deriving DecidableEq, Repr

/-- The state. `n`, `w`, `cb`, `cmp` are the block's architectural state (R33); the other fields are the
model's own (assumptions 1 and 3). -/
structure State where
  /-- The narrow file `N0..N3` (R23). -/
  n : Slots Narrow 4
  /-- The wide file `W0..W3` (R25). -/
  w : Slots Wide 4
  /-- `CB`, carry or borrow (R26). -/
  cb : BitVec 1
  /-- `CMP`, the last comparison's code (R27). -/
  cmp : BitVec 2
  /-- Which narrow digits something has written since reset (R34, U1). -/
  nWritten : Slots (Slots Bool 64) 4
  /-- Which wide digits something has written since reset (R34, U1). -/
  wWritten : Slots (Slots Bool 128) 4
  /-- How many operand reads have met an unwritten digit: the argument of `Config.freeDigit`. -/
  draws : Nat
  /-- The host's events still to come, oldest first (R48, R15). -/
  pending : List Event
  /-- The responses given, oldest first (D30). -/
  responses : List Response
deriving DecidableEq, Repr

/-- The state right after reset (R34, R160): `CB` 0, `CMP` 0b00, no data digit written. The stored digits
are 0 (DESIGN CHOICE, assumption 2); being marked unwritten they are never what a read answers. -/
def State.reset : State where
  n := Slots.fill 4 (zero 64)
  w := Slots.fill 4 (zero 128)
  cb := 0
  cmp := 0
  nWritten := Slots.fill 4 (Slots.fill 64 false)
  wWritten := Slots.fill 4 (Slots.fill 128 false)
  draws := 0
  pending := []
  responses := []

end Sys2Proof.Machine
end

