-- ==== Sys2Proof/Machine/Ops.lean ====
section
/-! DEFINITION. The shared operations over the registers, the host port's data words and the responses
(spec/20_memory.md R42, R47, R54; spec/60_exceptions.md R141, R147; spec/70 R160).

The block has no memory and no trap: all of trap entry is the `Err` response (R147), so `respondErr` is the
whole of taking an exception, and there is no return from one (R148). -/

namespace Sys2Proof.Machine

/-! ### Responses -/

/-- The code of an error cause (R141). -/
def ErrCause.code : ErrCause → Nat
  | .unmapped => 1
  | .accessKind => 2
  | .illegalCommand => 3

/-- The access ends with this response (R41). -/
def respond (r : Response) (s : State) : State :=
  { s with responses := s.responses ++ [r] }

/-- `respond Err(c)`: the access ends with that response "and no change of state" (R12, R141, R144, R147). -/
def respondErr (c : ErrCause) (s : State) : State :=
  respond (.err c) s

/-! ### Writing registers -/

/-- A command's write of a whole narrow register: every digit now has a value (R24, R162). -/
def writeN (r : NReg) (v : Narrow) (s : State) : State :=
  { s with n := s.n.set r v, nWritten := s.nWritten.set r (Slots.fill 64 true) }

/-- A command's write of a whole wide register (R25, R162). -/
def writeW (r : WReg) (v : Wide) (s : State) : State :=
  { s with w := s.w.set r v, wWritten := s.wWritten.set r (Slots.fill 128 true) }

/-- A host's write of one narrow digit: it changes nothing else (R47). -/
def writeNDigit (r : NReg) (k : Fin 64) (d : Digit) (s : State) : State :=
  { s with n := s.n.set r ((s.n.get r).set k d)
           nWritten := s.nWritten.set r ((s.nWritten.get r).set k true) }

/-- A host's write of one wide digit: it changes nothing else (R47). -/
def writeWDigit (r : WReg) (k : Fin 128) (d : Digit) (s : State) : State :=
  { s with w := s.w.set r ((s.w.get r).set k d)
           wWritten := s.wWritten.set r ((s.wWritten.get r).set k true) }

/-! ### Reading registers

A read of a written digit answers the stored digit; a read of an unwritten one answers a free value,
fresh for each read (R34, U1; assumption 1). -/

/-- What read number `draw` sees of digits `i, i+1, ...` with these marks. -/
def seenDigits (draw : Nat) : Nat → List Bool → List Digit → List Digit
  | i, m :: ms, d :: ds => (if m then d else Config.freeDigit draw i) :: seenDigits draw (i + 1) ms ds
  | _, _, _ => []

theorem seenDigits_length (draw : Nat) :
    ∀ (ms : List Bool) (ds : List Digit) (i : Nat), ms.length = ds.length →
      (seenDigits draw i ms ds).length = ds.length
  | [], [], _, _ => rfl
  | _ :: ms, _ :: ds, i, h => by
    simp only [seenDigits, List.length_cons]
    rw [seenDigits_length draw ms ds (i + 1) (by simpa using h)]

/-- What read number `draw` sees of a register with these marks. -/
def seen {n : Nat} (draw : Nat) (m : Slots Bool n) (v : Digits n) : Digits n :=
  ⟨seenDigits draw 0 m.list v.list, by rw [seenDigits_length _ _ _ _ (m.size.trans v.size.symm), v.size]⟩

/-- Every digit of the register has been written. -/
def allWritten {n : Nat} (m : Slots Bool n) : Bool := m.list.all id

/-- The next read number: a read that met an unwritten digit has used one up. -/
def nextDraw (written : Bool) (s : State) : State :=
  { s with draws := s.draws + if written then 0 else 1 }

/-- A read of one narrow digit: its value and the state after. -/
def readNDigit (r : NReg) (k : Fin 64) (s : State) : Digit × State :=
  let m := (s.nWritten.get r).get k
  (if m then (s.n.get r).get k else Config.freeDigit s.draws k, nextDraw m s)

/-- A read of one wide digit. -/
def readWDigit (r : WReg) (k : Fin 128) (s : State) : Digit × State :=
  let m := (s.wWritten.get r).get k
  (if m then (s.w.get r).get k else Config.freeDigit s.draws k, nextDraw m s)

/-! ### The host port's address map -/

/-- What a word address names (R42). -/
inductive Region where
  | narrow (r : NReg) (k : Fin 64)
  | wide (r : WReg) (k : Fin 128)
  | cmd
  | status
  | unmapped
deriving DecidableEq, Repr

/-- The address map, with R54's slices: `r = a[7:6]`, `k = a[5:0]` in the narrow range, `r = a[8:7]`,
`k = a[6:0]` in the wide range. -/
def region (a : Addr) : Region :=
  if a ≤ 0x0FF then .narrow (a.extractLsb' 6 2).toFin (a.extractLsb' 0 6).toFin
  else if 0x200 ≤ a ∧ a ≤ 0x3FF then .wide (a.extractLsb' 7 2).toFin (a.extractLsb' 0 7).toFin
  else if a = 0x400 then .cmd
  else if a = 0x401 then .status
  else .unmapped

/-- The word address of `Nr[k]` (R42). -/
def addrN (r : NReg) (k : Fin 64) : Addr := .ofNat 12 (0x40 * r.val + k.val)

/-- The word address of `Wr[k]` (R42). -/
def addrW (r : WReg) (k : Fin 128) : Addr := .ofNat 12 (0x200 + 0x80 * r.val + k.val)

/-- The word address of `CMD` (R29). -/
def addrCmd : Addr := 0x400

/-- The word address of `STATUS` (R28). -/
def addrStatus : Addr := 0x401

/-! ### Reset -/

/-- The reset event (R160): the flags at their reset values, every data digit unspecified again. What the
host has still to send, what it was answered and the count of free reads are not the block's and stay
(assumption 8). -/
def applyReset (s : State) : State :=
  { State.reset with draws := s.draws, pending := s.pending, responses := s.responses }

end Sys2Proof.Machine
end

