-- ==== Sys2Proof/Machine/Flags.lean ====
section
/-! DEFINITION. The flags `CB` and `CMP` and the `STATUS` view of them (spec/10_state.md R26-R28). -/

namespace Sys2Proof.Machine

/-- The three outcomes of a comparison (R27, R90). -/
inductive Cmp where
  | less | equal | greater
deriving DecidableEq, Repr

/-- `enc` of R69: two's complement -1, 0, +1 (R27). -/
def Cmp.enc : Cmp → BitVec 2
  | .less => 0b11
  | .equal => 0b00
  | .greater => 0b01

/-- The outcome a `CMP` code stands for; 0b10 is never produced and stands for none (R27, U7). -/
def cmpOutcome (b : BitVec 2) : Option Cmp :=
  if b = 0b11 then some .less
  else if b = 0b00 then some .equal
  else if b = 0b01 then some .greater
  else none

/-- `CB <- c` (R26). -/
def setCB (c : BitVec 1) (s : State) : State := { s with cb := c }

/-- `CMP <- enc(o)` (R27). -/
def setCMP (o : Cmp) (s : State) : State := { s with cmp := o.enc }

/-- What a read of `STATUS` answers: `zext_32(CMP || CB)`, bits 31:3 hard-wired 0 (R28). -/
def statusWord (s : State) : Digit := (s.cmp ++ s.cb).setWidth 32

end Sys2Proof.Machine
end

