-- ==== Sys2Proof/Machine/Operands.lean ====
section
/-! DEFINITION. The operand forms (spec/30_encoding.md R63-R66, R70): a whole narrow register, a whole wide
register, one digit of a narrow register. The immediate `p` of `SHLD` is its field itself (R66).

Each answers the operand's value and the state after the read; a command reads all its sources, `ra` first,
before it writes anything (R70). A read of written digits leaves the state as it was. -/

namespace Sys2Proof.Machine

/-- The whole of narrow register `r` as a source (R24). -/
def operandN (r : NReg) (s : State) : Narrow × State :=
  (seen s.draws (s.nWritten.get r) (s.n.get r), nextDraw (allWritten (s.nWritten.get r)) s)

/-- The whole of wide register `r` as a source (R25). -/
def operandW (r : WReg) (s : State) : Wide × State :=
  (seen s.draws (s.wWritten.get r) (s.w.get r), nextDraw (allWritten (s.wWritten.get r)) s)

/-- The multiplier digit `N[r][k]` of `MULD`, 0 the most significant (R65). -/
def operandDigit (r : NReg) (k : Fin 64) (s : State) : Digit × State :=
  readNDigit r k s

end Sys2Proof.Machine
end

