-- ==== Sys2Proof/Machine/Adder.lean ====
section
/-! DEFINITION. The adder with its carry-propagate chain (spec/42_add.md R95-R98), and the digit chain it
shares with the subtractor and the single-digit multiplier. -/

namespace Sys2Proof.Machine

/-- A propagate chain over digit positions, least significant (last) first: the carry into the last
position is 0; each position turns its inputs and the carry from below into a carry and a result digit.
Answers the carry out of the most significant position and the result digits (R95, R105, R113). -/
def carryChain {α : Type} (f : α → Nat → Nat × Digit) : List α → Nat × List Digit
  | [] => (0, [])
  | x :: xs =>
    let below := carryChain f xs
    let here := f x below.1
    (here.1, here.2 :: below.2)

theorem carryChain_length {α : Type} (f : α → Nat → Nat × Digit) (xs : List α) :
    (carryChain f xs).2.length = xs.length := by
  induction xs with
  | nil => rfl
  | cons x xs ih => simp [carryChain, ih]

/-- One step of R95: `t = a[i] + b[i] + c`; carry `floor(t / 2^32)`, digit `t mod 2^32`. -/
def addStep (d : Digit × Digit) (c : Nat) : Nat × Digit :=
  let t := d.1.toNat + d.2.toNat + c
  (t / 2 ^ 32, BitVec.ofNat 32 t)

/-- `Add_n(a, b)` of R95: the carry-out and the result. -/
def addDigits {n : Nat} (a b : Digits n) : BitVec 1 × Digits n :=
  (BitVec.ofNat 1 (carryChain addStep (a.list.zip b.list)).1,
   ⟨(carryChain addStep (a.list.zip b.list)).2, by simp [carryChain_length, a.size, b.size]⟩)

/-- `ADD Nd, Na, Nb` (R97): `(CB, N[rd]) <- Add_64(N[ra], N[rb])`; `CMP` is not written. -/
def execAdd (rd ra rb : NReg) (s : State) : Host.Outcome State Fault Refusal :=
  let a := operandN ra s
  let b := operandN rb a.2
  let r := addDigits a.1 b.1
  .next (setCB r.1 (writeN rd r.2 b.2))

/-- `ADDW Wd, Wa, Wb` (R98): `(CB, W[rd]) <- Add_128(W[ra], W[rb])`; `CMP` is not written. -/
def execAddw (rd ra rb : WReg) (s : State) : Host.Outcome State Fault Refusal :=
  let a := operandW ra s
  let b := operandW rb a.2
  let r := addDigits a.1 b.1
  .next (setCB r.1 (writeW rd r.2 b.2))

end Sys2Proof.Machine
end

