-- ==== Sys2Proof/Machine/Subtractor.lean ====
section
/-! DEFINITION. The subtractor with its borrow-propagate chain (spec/43_subtract.md R105-R107). -/

namespace Sys2Proof.Machine

/-- One step of R105, with its signed intermediate `t = a[i] - b[i] - bw`. -/
def subStep (d : Digit × Digit) (bw : Nat) : Nat × Digit :=
  let t : Int := (d.1.toNat : Int) - d.2.toNat - bw
  if 0 ≤ t then (0, BitVec.ofInt 32 t) else (1, BitVec.ofInt 32 (t + 2 ^ 32))

/-- `Sub_n(a, b)` of R105: the borrow-out and the result. -/
def subDigits {n : Nat} (a b : Digits n) : BitVec 1 × Digits n :=
  (BitVec.ofNat 1 (carryChain subStep (a.list.zip b.list)).1,
   ⟨(carryChain subStep (a.list.zip b.list)).2, by simp [carryChain_length, a.size, b.size]⟩)

/-- `SUB Nd, Na, Nb` (R107): `(CB, N[rd]) <- Sub_64(N[ra], N[rb])`, `N[ra]` the minuend; `CMP` is not
written. A borrow writes the wrapped result all the same. -/
def execSub (rd ra rb : NReg) (s : State) : Host.Outcome State Fault Refusal :=
  let a := operandN ra s
  let b := operandN rb a.2
  let r := subDigits a.1 b.1
  .next (setCB r.1 (writeN rd r.2 b.2))

end Sys2Proof.Machine
end

