-- ==== Sys2Proof/Machine/Comparator.lean ====
section
/-! DEFINITION. The magnitude comparator, a subtractor followed by a zero detector (spec/41_compare.md
R90-R92). R90's test `Encode(r) = "0"` is the all-digits-zero test (R91, R85). -/

namespace Sys2Proof.Machine

/-- The zero detector: every digit is 0 (R91). -/
def isZero {n : Nat} (v : Digits n) : Bool := v.list.all (fun d => d == 0)

/-- `Compare_n(a, b)` of R90, in R91's form. -/
def compareDigits {n : Nat} (a b : Digits n) : Cmp :=
  let r := subDigits a b
  if r.1 = 1 then .less
  else if isZero r.2 then .equal
  else .greater

/-- `CMP Na, Nb` (R92): `CMP <- enc(Compare_64(N[ra], N[rb]))`. `CB` and every register keep their values:
the borrow and the difference are internal. -/
def execCmp (ra rb : NReg) (s : State) : Host.Outcome State Fault Refusal :=
  let a := operandN ra s
  let b := operandN rb a.2
  .next (setCMP (compareDigits a.1 b.1) b.2)

end Sys2Proof.Machine
end

