-- ==== Sys2Proof/Machine/DigitMultiplier.lean ====
section
/-! DEFINITION. The single-digit multiplier with accumulate (spec/44_mul_by_digit.md R113-R115). -/

namespace Sys2Proof.Machine

/-- One step of R113: `t = a[j] * m + c`; carry `floor(t / 2^32)`, digit `t mod 2^32`. -/
def mulStep (m : Digit) (d : Digit) (c : Nat) : Nat × Digit :=
  let t := d.toNat * m.toNat + c
  (t / 2 ^ 32, BitVec.ofNat 32 t)

/-- `MulByDigit(a, m)` of R113: digits 0..62 zero, the final carry in digit 63, the chain's digits in the
low-order half 64..127. -/
def mulByDigit (a : Narrow) (m : Digit) : Wide :=
  ⟨List.replicate 63 0 ++
      BitVec.ofNat 32 (carryChain (mulStep m) a.list).1 :: (carryChain (mulStep m) a.list).2,
   by simp [carryChain_length, a.size]⟩

/-- `MULD Wd, Na, Nb[k]` (R115): `W[rd] <- MulByDigit(N[ra], N[rb][k])`. No flag is written. -/
def execMuld (rd : WReg) (ra rb : NReg) (k : Fin 64) (s : State) : Host.Outcome State Fault Refusal :=
  let a := operandN ra s
  let m := operandDigit rb k a.2
  .next (writeW rd (mulByDigit a.1 m.1) m.2)

end Sys2Proof.Machine
end

