-- ==== Sys2Proof/Machine/Shifter.lean ====
section
/-! DEFINITION. The digit shifter (spec/45_shift_digits.md R120-R122). It moves whole digit slots toward
index 0, the more significant end; it never shifts by bits. -/

namespace Sys2Proof.Machine

/-- R120's array, for any length: the first `p` digits are lost, the rest move to index 0, and the vacated
low-order slots are 0. -/
def shiftSlots {n : Nat} (v : Digits n) (p : Nat) : Digits n :=
  ⟨v.list.drop p ++ List.replicate (min p n) 0, by
    rw [List.length_append, List.length_drop, List.length_replicate, v.size]; omega⟩

/-- SROM's `ShiftDigitsLeft(buf, positions)`: a count outside 0..128 has no meaning and is refused rather
than answered (R121, U3). -/
def shiftDigitsLeft (buf : Wide) (positions : Int) : Option Wide :=
  if 0 ≤ positions ∧ positions ≤ 128 then some (shiftSlots buf positions.toNat) else none

/-- `SHLD Wd, Wa, p` (R122): `W[rd] <- ShiftDigitsLeft(W[ra], p)`; its `p` is always in 0..127 (R66). No
flag is written, also when non-zero digits are shifted out. -/
def execShld (rd ra : WReg) (p : Fin 128) (s : State) : Host.Outcome State Fault Refusal :=
  let a := operandW ra s
  .next (writeW rd (shiftSlots a.1 p.val) a.2)

end Sys2Proof.Machine
end

