-- ==== Sys2Proof/Machine/Multiplier.lean ====
section
/-! DEFINITION. The schoolbook multiplier (spec/46_multiply.md R127-R130). -/

namespace Sys2Proof.Machine

/-- The partial product of digit `i` of the multiplier at its place value: shifted by `63 - i` slots
(R127, R128; conflict C1: the formula wins). -/
def alignedProduct (a b : Narrow) (i : Fin 64) : Wide :=
  shiftSlots (mulByDigit a (b.get i)) (63 - i.val)

/-- The running 4096-bit total after the digits `is` of the multiplier, from `acc`; each carry-out is
discarded (R127). -/
def accumulate (a b : Narrow) (is : List (Fin 64)) (acc : Wide) : Wide :=
  is.foldl (fun t i => (addDigits t (alignedProduct a b i)).2) acc

/-- `Multiply(a, b)` of R127: the total starts at zero and takes the digits of `b` most significant
first. -/
def multiply (a b : Narrow) : Wide :=
  accumulate a b (List.finRange 64) (zero 128)

/-- `MUL Wd, Na, Nb` (R130): `W[rd] <- Multiply(N[ra], N[rb])`. `W[rd]`'s old value does not enter; no flag
and no other register is written. -/
def execMul (rd : WReg) (ra rb : NReg) (s : State) : Host.Outcome State Fault Refusal :=
  let a := operandN ra s
  let b := operandN rb a.2
  .next (writeW rd (multiply a.1 b.1) b.2)

end Sys2Proof.Machine
end

