-- ==== Sys2Proof/Machine/Dispatch.lean ====
section
/-! DEFINITION. The dispatch of a command to its meaning (spec/30_encoding.md R69). -/

namespace Sys2Proof.Machine

-- One arm per constructor of Instr, each one direct call of its meaning.
def exec (i : Instr) (s : State) : Host.Outcome State Fault Refusal :=
  match i with
  | .add rd ra rb => Sys2Proof.Machine.execAdd rd ra rb s
  | .addw rd ra rb => Sys2Proof.Machine.execAddw rd ra rb s
  | .sub rd ra rb => Sys2Proof.Machine.execSub rd ra rb s
  | .cmp ra rb => Sys2Proof.Machine.execCmp ra rb s
  | .muld rd ra rb k => Sys2Proof.Machine.execMuld rd ra rb k s
  | .shld rd ra p => Sys2Proof.Machine.execShld rd ra p s
  | .mul rd ra rb => Sys2Proof.Machine.execMul rd ra rb s

end Sys2Proof.Machine
end

