-- ==== Sys2Proof/WellFormed.lean ====
section
/-! DEFINITION. Which field values of a command word are well formed (spec/30_encoding.md R61, R62, R64-R67).

`Instr`'s operands are typed by their legal ranges, so every term of `Instr` is a command the encoding
admits. What can be ill formed is a command word's six FIELDS: this file states R62's format table and
R67's list of illegalities over them, one named check each. The decoder of `Decode.lean` does not use
these checks (it is written from R63's masks, as R73 says a decoder is), so that the two can be compared. -/

namespace Sys2Proof

/-- The fields of a command word (R61). -/
structure CmdFields where
  op  : BitVec 8
  rd  : BitVec 4
  ra  : BitVec 4
  rb  : BitVec 4
  z   : BitVec 4
  imm : BitVec 8
deriving DecidableEq, Repr

/-- The four formats (R62). -/
inductive Format where
  | r3 | r2c | r3k | r2p
deriving DecidableEq, Repr

namespace CmdFields

/-- The format of an opcode, `none` for an opcode outside 0x01..0x07 (R62, R63, R67). -/
def format (f : CmdFields) : Option Format :=
  if f.op = 0x01 ∨ f.op = 0x02 ∨ f.op = 0x03 ∨ f.op = 0x07 then some .r3
  else if f.op = 0x04 then some .r2c
  else if f.op = 0x05 then some .r3k
  else if f.op = 0x06 then some .r2p
  else none

/-- The opcode is one of 0x01..0x07 (R67). -/
def opKnown (f : CmdFields) : Bool := f.format.isSome

/-- `rd` is a register number 0..3, or zero where the format has no `rd` (R62, R64). -/
def rdOk (f : CmdFields) : Bool :=
  match f.format with
  | some .r2c => f.rd = 0
  | _ => f.rd ≤ 3

/-- `ra` is a register number 0..3 (R62, R64). -/
def raOk (f : CmdFields) : Bool := f.ra ≤ 3

/-- `rb` is a register number 0..3, or zero where the format has no `rb` (R62, R64). -/
def rbOk (f : CmdFields) : Bool :=
  match f.format with
  | some .r2p => f.rb = 0
  | _ => f.rb ≤ 3

/-- The reserved field is zero (R61). -/
def zOk (f : CmdFields) : Bool := f.z = 0

/-- `imm` is `k` in 0..63 for `MULD`, `p` in 0..127 for `SHLD`, zero for the others (R62, R65, R66). -/
def immOk (f : CmdFields) : Bool :=
  match f.format with
  | some .r3k => f.imm ≤ 63
  | some .r2p => f.imm ≤ 127
  | _ => f.imm = 0

/-- The fields are those of a legal command word (R67). -/
def wellFormed (f : CmdFields) : Bool :=
  f.opKnown && f.rdOk && f.raOk && f.rbOk && f.zOk && f.immOk

end CmdFields

namespace Instr

/-- The field values R71's table gives a command. -/
def fields : Instr → CmdFields
  | .add rd ra rb    => ⟨0x01, .ofNat 4 rd, .ofNat 4 ra, .ofNat 4 rb, 0, 0⟩
  | .addw rd ra rb   => ⟨0x02, .ofNat 4 rd, .ofNat 4 ra, .ofNat 4 rb, 0, 0⟩
  | .sub rd ra rb    => ⟨0x03, .ofNat 4 rd, .ofNat 4 ra, .ofNat 4 rb, 0, 0⟩
  | .cmp ra rb       => ⟨0x04, 0, .ofNat 4 ra, .ofNat 4 rb, 0, 0⟩
  | .muld rd ra rb k => ⟨0x05, .ofNat 4 rd, .ofNat 4 ra, .ofNat 4 rb, 0, .ofNat 8 k⟩
  | .shld rd ra p    => ⟨0x06, .ofNat 4 rd, .ofNat 4 ra, 0, 0, .ofNat 8 p⟩
  | .mul rd ra rb    => ⟨0x07, .ofNat 4 rd, .ofNat 4 ra, .ofNat 4 rb, 0, 0⟩

/-- A command is well formed when its fields are. -/
def wellFormed (i : Instr) : Bool := i.fields.wellFormed

end Instr

end Sys2Proof
end

