-- ==== Sys2Proof/Decode.lean ====
section
/-! DEFINITION. The decoder and the encoder (spec/30_encoding.md R61, R63, R67, R71, R73).

The decoder is R73's: find the row of R63 with `c AND mask = match`, extract the fields; a word that
matches no row is rejected. It is total on all 2^32 words. -/

namespace Sys2Proof

/-- Why a word is rejected. R143: one code covers every reason of R67. -/
inductive DecodeError where
  /-- No row of R63 matches the word; the host write responds `Err(3)` (R67). Safe: the machine goes on. -/
  | illegalCommand
deriving DecidableEq, Repr

/-- The seven operations of R63. -/
inductive Opcode where
  | add | addw | sub | cmp | muld | shld | mul
deriving DecidableEq, Repr

/-- A row of R63's opcode map: it selects `c` when `c AND mask = pattern`. -/
structure Row where
  op      : Opcode
  pattern : Word
  mask    : Word
deriving DecidableEq, Repr

/-- The opcode map (R63). -/
def opcodeMap : List Row := [
  ⟨.add,  0x01000000, 0xFFCCCFFF⟩,
  ⟨.addw, 0x02000000, 0xFFCCCFFF⟩,
  ⟨.sub,  0x03000000, 0xFFCCCFFF⟩,
  ⟨.cmp,  0x04000000, 0xFFFCCFFF⟩,
  ⟨.muld, 0x05000000, 0xFFCCCFC0⟩,
  ⟨.shld, 0x06000000, 0xFFCCFF80⟩,
  ⟨.mul,  0x07000000, 0xFFCCCFFF⟩ ]

/-- The row selects the word (R63). -/
def Row.selects (r : Row) (c : Word) : Bool := c &&& r.mask = r.pattern

/-- The row that selects a word, if any (R73). -/
def rowOf (c : Word) : Option Row := opcodeMap.find? (fun r => r.selects c)

/-- The fields of a word (R61). -/
def fieldsOf (c : Word) : CmdFields where
  op  := c.extractLsb' 24 8
  rd  := c.extractLsb' 20 4
  ra  := c.extractLsb' 16 4
  rb  := c.extractLsb' 12 4
  z   := c.extractLsb' 8 4
  imm := c.extractLsb' 0 8

/-- A register number: a selected row's mask has already made the field's two upper bits zero (R63, R64). -/
def regNumber (f : BitVec 4) : Fin 4 := Fin.ofNat 4 f.toNat

/-- The command a row makes of the fields (R63, R65, R66, R73). -/
def assemble (op : Opcode) (f : CmdFields) : Instr :=
  match op with
  | .add  => .add (regNumber f.rd) (regNumber f.ra) (regNumber f.rb)
  | .addw => .addw (regNumber f.rd) (regNumber f.ra) (regNumber f.rb)
  | .sub  => .sub (regNumber f.rd) (regNumber f.ra) (regNumber f.rb)
  | .cmp  => .cmp (regNumber f.ra) (regNumber f.rb)
  | .muld => .muld (regNumber f.rd) (regNumber f.ra) (regNumber f.rb) (Fin.ofNat 64 f.imm.toNat)
  | .shld => .shld (regNumber f.rd) (regNumber f.ra) (Fin.ofNat 128 f.imm.toNat)
  | .mul  => .mul (regNumber f.rd) (regNumber f.ra) (regNumber f.rb)

/-- The decoder (R67, R73). -/
def decode (c : Word) : Except DecodeError Instr :=
  match rowOf c with
  | some r => .ok (assemble r.op (fieldsOf c))
  | none => .error .illegalCommand

/-- The encoder, from R71's table of formulas. -/
def encode : Instr → Word
  | .add d a b    => .ofNat 32 (0x01000000 + d.val * 2 ^ 20 + a.val * 2 ^ 16 + b.val * 2 ^ 12)
  | .addw d a b   => .ofNat 32 (0x02000000 + d.val * 2 ^ 20 + a.val * 2 ^ 16 + b.val * 2 ^ 12)
  | .sub d a b    => .ofNat 32 (0x03000000 + d.val * 2 ^ 20 + a.val * 2 ^ 16 + b.val * 2 ^ 12)
  | .cmp a b      => .ofNat 32 (0x04000000 + a.val * 2 ^ 16 + b.val * 2 ^ 12)
  | .muld d a b k => .ofNat 32 (0x05000000 + d.val * 2 ^ 20 + a.val * 2 ^ 16 + b.val * 2 ^ 12 + k.val)
  | .shld d a p   => .ofNat 32 (0x06000000 + d.val * 2 ^ 20 + a.val * 2 ^ 16 + p.val)
  | .mul d a b    => .ofNat 32 (0x07000000 + d.val * 2 ^ 20 + a.val * 2 ^ 16 + b.val * 2 ^ 12)

/-- The word of a command whose `nbits` low bits are those of `w` and whose other bits are 0 (R10, R61:
bit 0 is the least significant bit of the one 32-bit word). -/
def tableWord (nbits w : Nat) : Word := .ofNat 32 (w % 2 ^ nbits)

/-- The decoder on a word numbered as spec/opcode_table.json numbers it. -/
def decodeTableWord (nbits w : Nat) : Option Instr :=
  match decode (tableWord nbits w) with
  | .ok i => some i
  | .error _ => none

end Sys2Proof
end

