-- ==== Sys2Proof/Machine/Reserved.lean ====
section
/-! DEFINITION. The two reserved opcodes under `HAS_SUBW = true` (spec/30_encoding.md R68). They are no rows
of the opcode table and no constructors of `Instr`; at `HAS_SUBW = false`, this spec's configuration, their
words are illegal (assumption 9). -/

namespace Sys2Proof.Machine

/-- The reserved commands (R68). -/
inductive Reserved where
  /-- `SUBW`, format `R3`, all three fields in the W file. -/
  | subw (rd ra rb : WReg)
  /-- `CMPW`, format `R2C` over the W file. -/
  | cmpw (ra rb : WReg)
deriving DecidableEq, Repr

/-- The reserved command a word stands for, with the masks R63 gives formats `R3` and `R2C`. -/
def decodeReserved (c : Word) : Option Reserved :=
  let f := fieldsOf c
  if c &&& 0xFFCCCFFF = 0x08000000 then
    some (.subw (regNumber f.rd) (regNumber f.ra) (regNumber f.rb))
  else if c &&& 0xFFFCCFFF = 0x09000000 then
    some (.cmpw (regNumber f.ra) (regNumber f.rb))
  else none

/-- `(CB, W[rd]) <- Sub_128(W[ra], W[rb])` (R68). -/
def execSubw (rd ra rb : WReg) (s : State) : Host.Outcome State Fault Refusal :=
  let a := operandW ra s
  let b := operandW rb a.2
  let r := subDigits a.1 b.1
  .next (setCB r.1 (writeW rd r.2 b.2))

/-- `CMP <- Compare_128(W[ra], W[rb])` (R68). -/
def execCmpw (ra rb : WReg) (s : State) : Host.Outcome State Fault Refusal :=
  let a := operandW ra s
  let b := operandW rb a.2
  .next (setCMP (compareDigits a.1 b.1) b.2)

/-- The meaning of a reserved command (R68). -/
def execReserved (r : Reserved) (s : State) : Host.Outcome State Fault Refusal :=
  match r with
  | .subw rd ra rb => execSubw rd ra rb s
  | .cmpw ra rb => execCmpw ra rb s

end Sys2Proof.Machine
end

