-- ==== Sys2Proof/Machine/Port.lean ====
section
/-! DEFINITION. The host port: R54's procedure for a host access and R69's `Execute`
(spec/20_memory.md R41, R54; spec/30_encoding.md R69; spec/60_exceptions.md R141-R145). -/

namespace Sys2Proof.Machine

/-- "respond Ok" after a command has run (R69). -/
def respondOk (o : Host.Outcome State Fault Refusal) : Host.Outcome State Fault Refusal :=
  match o with
  | .next t => .next (respond .ok t)
  | .fault f => .fault f
  | .refused r => .refused r

/-- `Execute(c)` of R69, the parameter `HAS_SUBW` an argument (R8, R68): a legal word runs to completion and
then responds `Ok`; any other word responds `Err(3)` and changes nothing (R67, R143). -/
def execute (hasSubw : Bool) (c : Word) (s : State) : Host.Outcome State Fault Refusal :=
  match decode c with
  | .ok i => respondOk (exec i s)
  | .error .illegalCommand =>
    match hasSubw, decodeReserved c with
    | true, some r => respondOk (execReserved r s)
    | _, _ => .next (respondErr .illegalCommand s)

/-- `HostRead(a)` of R54. -/
def hostRead (a : Addr) (s : State) : State :=
  match region a with
  | .narrow r k => respond (.okData (readNDigit r k s).1) (readNDigit r k s).2
  | .wide r k => respond (.okData (readWDigit r k s).1) (readWDigit r k s).2
  | .status => respond (.okData (statusWord s)) s
  | .cmd => respondErr .accessKind s
  | .unmapped => respondErr .unmapped s

/-- `HostWrite(a, v)` of R54. -/
def hostWrite (a : Addr) (v : Digit) (s : State) : Host.Outcome State Fault Refusal :=
  match region a with
  | .narrow r k => .next (respond .ok (writeNDigit r k v s))
  | .wide r k => .next (respond .ok (writeWDigit r k v s))
  | .status => .next (respondErr .accessKind s)
  | .cmd => execute Config.hasSubw v s
  | .unmapped => .next (respondErr .unmapped s)

/-- One event of the host's stream, to completion (R48, R160). -/
def handle (e : Event) (s : State) : Host.Outcome State Fault Refusal :=
  match e with
  | .read a => .next (hostRead a s)
  | .write a v => hostWrite a v s
  | .reset => .next (applyReset s)

end Sys2Proof.Machine
end

