-- ==== Sys2Proof/Machine/Step.lean ====
section
/-! DEFINITION. One step of the machine (spec/20_memory.md R48, R49; spec/10_state.md R31). -/

namespace Sys2Proof.Machine

/-- One step: the next event of the host's stream, run to completion before the one after it begins (R48).
With nothing pending "the block simply holds its registers" (R153; assumption 5). -/
def step (s : State) : Host.Outcome State Fault Refusal :=
  match s.pending with
  | [] => .next s
  | e :: rest => handle e { s with pending := rest }

/-- `s` with the instruction `w` where `step` takes its next one: the data of a host write to `CMD`, first
of the host's pending events (R29, R31; assumption 3). -/
def State.withFetchWord (s : State) (nbits w : Nat) : State :=
  { s with pending := .write addrCmd (tableWord nbits w) :: s.pending }

end Sys2Proof.Machine
end

