-- ==== Sys2Proof/Machine/Assembler.lean ====
section
/-! DEFINITION. The assembler's line syntax (spec/30_encoding.md R71): one command a line, fields separated
by commas, `;` starts a comment, mnemonics and register names in either case, immediates decimal or
hexadecimal with `0x`. Host software, outside the block. Spaces and the form of numbers: assumption 11. -/

namespace Sys2Proof.Machine

/-- A line is empty but for spaces and a comment, a command, or rejected. -/
inductive AsmLine where
  | blank
  | command (i : Instr)
  | rejected
deriving DecidableEq, Repr

/-- A letter in lower case (R71: case-insensitive). -/
def lower (c : Char) : Char :=
  if 'A' ≤ c ∧ c ≤ 'Z' then Char.ofNat (c.toNat + 32) else c

/-- The value of a digit character in a base up to 16. -/
def baseDigit (base : Nat) (c : Char) : Option Nat :=
  let x := if '0' ≤ c ∧ c ≤ '9' then c.toNat - '0'.toNat
    else if 'a' ≤ c ∧ c ≤ 'f' then c.toNat - 'a'.toNat + 10
    else base
  if x < base then some x else none

/-- The number digits spell in a base after `acc`. -/
def numeral (base acc : Nat) : List Char → Option Nat
  | [] => some acc
  | c :: cs =>
    match baseDigit base c with
    | some x => numeral base (base * acc + x) cs
    | none => none

/-- An immediate: decimal, or hexadecimal with `0x`; at least one digit (R71). -/
def immediate : List Char → Option Nat
  | [] => none
  | '0' :: 'x' :: cs => if cs = [] then none else numeral 16 0 cs
  | cs => numeral 10 0 cs

/-- An immediate in `0..n-1` (R71: out of range is rejected). -/
def immediateBelow (n : Nat) (cs : List Char) : Option (Fin n) :=
  match immediate cs with
  | some x => if h : x < n then some ⟨x, h⟩ else none
  | none => none

/-- A register number 0..3 (R71). -/
def regDigit : Char → Option (Fin 4)
  | '0' => some 0
  | '1' => some 1
  | '2' => some 2
  | '3' => some 3
  | _ => none

/-- `N0..N3` (R71: a register of the wrong file is rejected). -/
def asmN : List Char → Option NReg
  | ['n', c] => regDigit c
  | _ => none

/-- `W0..W3`. -/
def asmW : List Char → Option WReg
  | ['w', c] => regDigit c
  | _ => none

/-- `Nb[k]`, the multiplier digit of `MULD`. -/
def asmDigit : List Char → Option (NReg × Fin 64)
  | 'n' :: c :: '[' :: cs =>
    match regDigit c, cs.getLast? with
    | some r, some ']' => (immediateBelow 64 cs.dropLast).map (fun k => (r, k))
    | _, _ => none
  | _ => none

/-- The fields of a line, split at commas. -/
def splitCommas : List Char → List (List Char)
  | [] => [[]]
  | ',' :: cs => [] :: splitCommas cs
  | c :: cs =>
    match splitCommas cs with
    | w :: ws => (c :: w) :: ws
    | [] => [[c]]

/-- The three register operands of a line. -/
def three {α β γ : Type} (f : List Char → Option α) (g : List Char → Option β)
    (h : List Char → Option γ) (mk : α → β → γ → Instr) : List (List Char) → Option Instr
  | [x, y, z] =>
    match f x, g y, h z with
    | some a, some b, some c => some (mk a b c)
    | _, _, _ => none
  | _ => none

/-- The command a mnemonic makes of its operand fields (R71's table). -/
def asmCommand (mnemonic : List Char) (ops : List (List Char)) : Option Instr :=
  if mnemonic = ['a', 'd', 'd'] then three asmN asmN asmN .add ops
  else if mnemonic = ['a', 'd', 'd', 'w'] then three asmW asmW asmW .addw ops
  else if mnemonic = ['s', 'u', 'b'] then three asmN asmN asmN .sub ops
  else if mnemonic = ['c', 'm', 'p'] then
    match ops with
    | [x, y] =>
      match asmN x, asmN y with
      | some a, some b => some (.cmp a b)
      | _, _ => none
    | _ => none
  else if mnemonic = ['m', 'u', 'l', 'd'] then three asmW asmN asmDigit (fun d a bk => .muld d a bk.1 bk.2) ops
  else if mnemonic = ['s', 'h', 'l', 'd'] then three asmW asmW (immediateBelow 128) .shld ops
  else if mnemonic = ['m', 'u', 'l'] then three asmW asmN asmN .mul ops
  else none

/-- White space between fields. -/
def isBlank (c : Char) : Bool := c = ' ' || c = '\t'

/-- One line of a program (R71). -/
def assembleLine (line : List Char) : AsmLine :=
  let code := ((line.takeWhile (fun c => c ≠ ';')).map lower).dropWhile isBlank
  if code = [] then .blank
  else
    let mnemonic := code.takeWhile (fun c => !isBlank c)
    let rest := (code.dropWhile (fun c => !isBlank c)).filter (fun c => !isBlank c)
    match asmCommand mnemonic (splitCommas rest) with
    | some i => .command i
    | none => .rejected

/-- A number below 1000 in decimal. -/
def decimal (x : Nat) : List Char :=
  let d := fun k => Char.ofNat ('0'.toNat + x / 10 ^ k % 10)
  if x < 10 then [d 0] else if x < 100 then [d 1, d 0] else [d 2, d 1, d 0]

/-- A register's name. -/
def regName (file : Char) (r : Fin 4) : List Char := file :: decimal r.val

/-- A line of fields: the mnemonic, then the operands, `, ` between them (R71). -/
def lineOf (mnemonic : List Char) : List (List Char) → List Char
  | [] => mnemonic
  | op :: ops => mnemonic ++ ' ' :: op ++ ops.flatMap (fun o => ',' :: ' ' :: o)

/-- A command in R71's syntax. -/
def asmText : Instr → List Char
  | .add d a b => lineOf ['A', 'D', 'D'] [regName 'N' d, regName 'N' a, regName 'N' b]
  | .addw d a b => lineOf ['A', 'D', 'D', 'W'] [regName 'W' d, regName 'W' a, regName 'W' b]
  | .sub d a b => lineOf ['S', 'U', 'B'] [regName 'N' d, regName 'N' a, regName 'N' b]
  | .cmp a b => lineOf ['C', 'M', 'P'] [regName 'N' a, regName 'N' b]
  | .muld d a b k =>
    lineOf ['M', 'U', 'L', 'D'] [regName 'W' d, regName 'N' a, regName 'N' b ++ '[' :: decimal k.val ++ [']']]
  | .shld d a p => lineOf ['S', 'H', 'L', 'D'] [regName 'W' d, regName 'W' a, decimal p.val]
  | .mul d a b => lineOf ['M', 'U', 'L'] [regName 'W' d, regName 'N' a, regName 'N' b]

end Sys2Proof.Machine
end

