-- ==== Sys2Proof/Machine/HexCodec.lean ====
section
/-! DEFINITION. The hex codec, host software outside the block (spec/00_scope.md R5, spec/40_hex_codec.md
R80-R87; conflict C2). An ASCII string is its list of characters. No command reaches this file. -/

namespace Sys2Proof.Machine

/-- The two error kinds (R87); `ParseError` carries no payload (U8). -/
inductive CodecError where
  | outOfRange
  | parseError
deriving DecidableEq, Repr

/-- The value of a hex character, `none` for any other character (R80, U9). PRESUMED: the values are
general knowledge, G1 (assumption 10). -/
def hexValue (c : Char) : Option Nat :=
  if '0' ≤ c ∧ c ≤ '9' then some (c.toNat - '0'.toNat)
  else if 'a' ≤ c ∧ c ≤ 'f' then some (c.toNat - 'a'.toNat + 10)
  else if 'A' ≤ c ∧ c ≤ 'F' then some (c.toNat - 'A'.toNat + 10)
  else none

/-- The base-16 number a chunk spells after `acc`, first character most significant; `none` if the chunk
has a non-hex character (R80, R81). -/
def spells (acc : Nat) : List Char → Option Nat
  | [] => some acc
  | c :: cs =>
    match hexValue c with
    | some x => spells (16 * acc + x) cs
    | none => none

/-- One chunk parsed into slot `i` (R81). -/
def placeChunk (chunk : List Char) (i : Fin 64) (v : Narrow) : Except CodecError Narrow :=
  match spells 0 chunk with
  | some x => .ok (v.set i (BitVec.ofNat 32 x))
  | none => .error .parseError

/-- The first `j` whole chunks of `s` in processing order, least significant first: chunk `j` is
`s[L-8*(j+1) .. L-8*j-1]` and fills slot `63-j` (R81). -/
def placeChunks (s : List Char) : Nat → Except CodecError Narrow
  | 0 => .ok (zero 64)
  | j + 1 =>
    match placeChunks s j with
    | .ok v => placeChunk ((s.drop (s.length - 8 * (j + 1))).take 8) ⟨63 - j, by omega⟩ v
    | .error e => .error e

/-- `Decode(s)` of R81. The length is checked before any parsing (R82 (b)). -/
def hexDecode (s : List Char) : Except CodecError Narrow :=
  let q := s.length / 8
  let m := s.length % 8
  if 512 < s.length then .error .outOfRange
  else
    match placeChunks s q with
    | .ok v => if 0 < m then placeChunk (s.take m) ⟨63 - q, by omega⟩ v else .ok v
    | .error e => .error e

/-- The hex character of a value below 16 (R84: one letter case throughout). -/
def hexChar (upper : Bool) (x : Nat) : Char :=
  Char.ofNat (if x < 10 then '0'.toNat + x else (if upper then 'A'.toNat else 'a'.toNat) + (x - 10))

/-- `hex8(d)` of R83: 8 characters, zero-left-padded. -/
def hex8 (upper : Bool) (d : Digit) : List Char :=
  (List.range 8).map (fun i => hexChar upper (d.toNat / 16 ^ (7 - i) % 16))

/-- The groups of R83 for digits whose first is not zero; `pad` is `ENCODE_PAD_FIRST_GROUP`, and without it
the first group loses its leading `0` characters (C2, D27). -/
def hexGroups (pad upper : Bool) : List Digit → List Char
  | [] => ['0']
  | d :: ds =>
    (if pad then hex8 upper d else (hex8 upper d).dropWhile (fun c => c == '0')) ++ ds.flatMap (hex8 upper)

/-- `Encode(v)` of R83, with the two open parameters as arguments (R8, U10). -/
def hexEncodeWith (pad upper : Bool) {n : Nat} (v : Digits n) : List Char :=
  hexGroups pad upper (v.list.dropWhile (fun d => d == 0))

/-- `Encode(v)` of R83 in this spec's configuration. -/
def hexEncode {n : Nat} (v : Digits n) : List Char :=
  hexEncodeWith Config.encodePadFirstGroup Config.hexUpper v

/-- `Compare_n(a, b)` literally as SROM and R90 write it, through `Encode`. The comparator of the hardware
is `compareDigits` (R91, conflict C5). -/
def compareByEncode {n : Nat} (a b : Digits n) : Cmp :=
  let r := subDigits a b
  if r.1 = 1 then .less
  else if hexEncode r.2 = ['0'] then .equal
  else .greater

end Sys2Proof.Machine
end

