-- ==== Sys2Proof/Machine/Directives.lean ====
section
/-! DEFINITION. The host directives of this spec's programs: each stands for host port accesses
(spec/30_encoding.md R72), and the host-driven multiplication (spec/46_multiply.md R131). -/

namespace Sys2Proof.Machine

/-- A command mnemonic's line: `HostWrite(0x400, word)` (R72). -/
def cmdWrite (i : Instr) : Event := .write addrCmd (encode i)

/-- `SETN Nr, x`: the 64 digits of `x`, in ascending index order (R72). R72 gives it for `x < 2^2048` only; a
larger `x` is taken modulo `2^2048` (DESIGN CHOICE, assumption 13). -/
def setN (r : NReg) (x : Nat) : List Event :=
  (List.finRange 64).map (fun k => .write (addrN r k) ((digitsOf 64 x).get k))

/-- `SETW Wr, x` (R72). R72 gives it for `x < 2^4096` only; a larger `x` is taken modulo `2^4096` (DESIGN CHOICE,
assumption 13). -/
def setW (r : WReg) (x : Nat) : List Event :=
  (List.finRange 128).map (fun k => .write (addrW r k) ((digitsOf 128 x).get k))

/-- `SETN Nr, x` with `x` given as a hex string: `x = val(Decode(s))` (R72). A failed `Decode` produces no value,
so no access is made on its account (R87). -/
def setNHex (r : NReg) (s : List Char) : Except CodecError (List Event) :=
  match hexDecode s with
  | .ok v => .ok (setN r (val v))
  | .error e => .error e

/-- `GETN Nr`, the accesses; `valueRead` is the value read (R72). -/
def getN (r : NReg) : List Event := (List.finRange 64).map (fun k => .read (addrN r k))

/-- `GETW Wr`, the accesses (R72). -/
def getW (r : WReg) : List Event := (List.finRange 128).map (fun k => .read (addrW r k))

/-- The data words of a list of responses, `none` if one of them carries none (R41). -/
def dataRead : List Response → Option (List Digit)
  | [] => some []
  | .okData d :: rs => (dataRead rs).map (d :: ·)
  | .ok :: _ => none
  | .err _ :: _ => none

/-- The value a `GETN` or `GETW` reads, from its responses: `val` of the digits, the first the most significant
(R43, R72); `none` if a response carries no data. -/
def valueRead (rs : List Response) : Option Nat := (dataRead rs).map listVal

/-- One round of R131's host-driven program: digit `i` of the multiplier. -/
def hostMulRound (wd wt : WReg) (na nb : NReg) (i : Fin 64) : List Event :=
  [cmdWrite (.muld wt na nb i),
   cmdWrite (.shld wt wt ⟨63 - i.val, by omega⟩),
   cmdWrite (.addw wd wd wt)]

/-- R131's host-driven program: `SETW Wd, 0`, then a round for each digit of `Nb`. -/
def hostMultiply (wd wt : WReg) (na nb : NReg) : List Event :=
  setW wd 0 ++ (List.finRange 64).flatMap (hostMulRound wd wt na nb)

end Sys2Proof.Machine
end

