-- ==== Sys2Proof/Safety.lean ====
section
/-! DEFINITION. What counts as a safe run, and the words the statements use (spec/60_exceptions.md R144,
spec/70_reset_and_hazards.md R162, spec/10_state.md R27, R34). -/

namespace Sys2Proof.Machine

/-- The response is an error (R141). -/
def Response.isErr : Response → Bool
  | .err _ => true
  | _ => false

/-- "no access responded `Err`", the premise R144 advises for a claim about a program. -/
def State.noErr (s : State) : Bool := s.responses.all (fun r => !r.isErr)

/-- R144's other reading: `step`, but an access that responds `Err` is a fault of the run. -/
def strictStep (s : State) : Host.Outcome State Fault Refusal :=
  match step s with
  | .next t =>
    match t.responses.drop s.responses.length with
    | [.err c] => .fault (.errResponse c)
    | _ => .next t
  | .fault f => .fault f
  | .refused r => .refused r

/-- `k` steps from `s`, stopping at the first fault or refusal. -/
def run : Nat → State → Host.Outcome State Fault Refusal
  | 0, s => .next s
  | k + 1, s =>
    match step s with
    | .next t => run k t
    | .fault f => .fault f
    | .refused r => .refused r

/-- `CMP` holds a code that a comparison produces: 0b10 never occurs (R27). -/
abbrev State.CmpLegal (s : State) : Prop := s.cmp ≠ 0b10

/-- `a` is a value a read of a register with these marks and this content may answer: it agrees with the
content on every written digit, and is anything on the others (R34, U1). -/
def ReadsAs {n : Nat} (m : Slots Bool n) (v a : Digits n) : Prop :=
  ∀ k : Fin n, m.get k = true → a.get k = v.get k

/-- Every register a command reads has a value (R162; for `MULD` all of `N[ra]` and digit `k` of `N[rb]`). -/
def SourcesWritten (i : Instr) (s : State) : Prop :=
  match i with
  | .add _ ra rb | .sub _ ra rb | .cmp ra rb | .mul _ ra rb =>
    allWritten (s.nWritten.get ra) = true ∧ allWritten (s.nWritten.get rb) = true
  | .addw _ ra rb => allWritten (s.wWritten.get ra) = true ∧ allWritten (s.wWritten.get rb) = true
  | .muld _ ra rb k => allWritten (s.nWritten.get ra) = true ∧ (s.nWritten.get rb).get k = true
  | .shld _ ra _ => allWritten (s.wWritten.get ra) = true

/-- The narrow file, digits and marks, is as it was. -/
abbrev KeepsN (s t : State) : Prop := t.n = s.n ∧ t.nWritten = s.nWritten

/-- The wide file, digits and marks, is as it was. -/
abbrev KeepsW (s t : State) : Prop := t.w = s.w ∧ t.wWritten = s.wWritten

/-- Every narrow register but `r` is as it was. -/
abbrev KeepsNExcept (r : NReg) (s t : State) : Prop :=
  ∀ q, q ≠ r → t.n.get q = s.n.get q ∧ t.nWritten.get q = s.nWritten.get q

/-- Every wide register but `r` is as it was. -/
abbrev KeepsWExcept (r : WReg) (s t : State) : Prop :=
  ∀ q, q ≠ r → t.w.get q = s.w.get q ∧ t.wWritten.get q = s.wWritten.get q

/-- The host's stream is as it was: a command neither consumes nor answers an access, its `CMD` write does. -/
abbrev KeepsStream (s t : State) : Prop := t.pending = s.pending ∧ t.responses = s.responses

/-- The word address is in none of R42's mapped ranges. -/
abbrev Unmapped (a : Addr) : Prop := (0x100 ≤ a ∧ a ≤ 0x1FF) ∨ 0x402 ≤ a

/-- The response a host read of `a` would get. -/
def answer (a : Addr) (s : State) : Option Response := (hostRead a s).responses.getLast?

/-- The registers a command reads hold the same values in both states, and it reads no unwritten digit. -/
def SourcesAgree (i : Instr) (s t : State) : Prop :=
  SourcesWritten i s ∧ SourcesWritten i t ∧
  match i with
  | .add _ ra rb | .sub _ ra rb | .cmp ra rb | .mul _ ra rb =>
    s.n.get ra = t.n.get ra ∧ s.n.get rb = t.n.get rb
  | .addw _ ra rb => s.w.get ra = t.w.get ra ∧ s.w.get rb = t.w.get rb
  | .muld _ ra rb k => s.n.get ra = t.n.get ra ∧ (s.n.get rb).get k = (t.n.get rb).get k
  | .shld _ ra _ => s.w.get ra = t.w.get ra

/-- What a command writes is the same in both states: its destination register and its flag. -/
def ResultsAgree (i : Instr) (s t : State) : Prop :=
  match i with
  | .add rd _ _ | .sub rd _ _ => s.n.get rd = t.n.get rd ∧ s.cb = t.cb
  | .addw rd _ _ => s.w.get rd = t.w.get rd ∧ s.cb = t.cb
  | .cmp _ _ => s.cmp = t.cmp
  | .muld rd _ _ _ | .shld rd _ _ | .mul rd _ _ => s.w.get rd = t.w.get rd

/-- Nothing the host can observe tells the two states apart: they differ at most in what is stored in
digits that nothing has written since reset (R34: a model must not assume their value). -/
structure SameWritten (s t : State) : Prop where
  nMarks : s.nWritten = t.nWritten
  wMarks : s.wWritten = t.wWritten
  n : ∀ (r : NReg) (k : Fin 64), (s.nWritten.get r).get k = true → (s.n.get r).get k = (t.n.get r).get k
  w : ∀ (r : WReg) (k : Fin 128), (s.wWritten.get r).get k = true → (s.w.get r).get k = (t.w.get r).get k
  cb : s.cb = t.cb
  cmp : s.cmp = t.cmp
  draws : s.draws = t.draws
  pending : s.pending = t.pending
  responses : s.responses = t.responses

end Sys2Proof.Machine
end

