-- ==== Sys2Proof/Certificates/Slice0/Obligations.lean ====
section
/-! DEFINITION. The statements for the provers. `ReadsAs m v a` says that `a` is a value a read of a register
with marks `m` and content `v` may answer: on a register that has been written it is the content, on
unwritten digits it is anything (R34). So a statement over `ReadsAs` covers every state, whatever the free
values are. That a command goes on when it reads such a digit is the model's choice (log entry 1), as is that its
destination then counts as written (log entry 6); where the sources have values (R162) neither plays a part. -/

open Sys2Proof
open Sys2Proof.Machine

/-! ### Encoding and the step -/

/-- R29, R69: the host's write of a legal word to `CMD` runs the command to completion and responds `Ok`;
the step is `exec` of the decoded command on the state without that event, plus the response. -/
def Obligations.StepRunsDecodedCommand : Prop :=
  ∀ (s : State) (c : Word) (i : Instr) (rest : List Event), decode c = .ok i →
    (s.pending = .write addrCmd c :: rest →
      ∃ t, exec i { s with pending := rest } = .next t ∧ step s = .next (respond .ok t)) ∧
    (∃ t, exec i s = .next t ∧ step (s.withFetchWord 32 c.toNat) = .next (respond .ok t))

/-- The words the spec writes out in its worked examples (R92, R97, R98, R107, R115, R122, R130) decode to
the commands they stand for. -/
def Obligations.DecodesWorkedExampleWords : Prop :=
  decode 0x01012000 = .ok (.add 0 1 2) ∧
  decode 0x02001000 = .ok (.addw 0 0 1) ∧
  decode 0x03012000 = .ok (.sub 0 1 2) ∧
  decode 0x04012000 = .ok (.cmp 1 2) ∧
  decode 0x0501203F = .ok (.muld 0 1 2 63) ∧
  decode 0x06110001 = .ok (.shld 1 1 1) ∧
  decode 0x07012000 = .ok (.mul 0 1 2)

/-- R71, R73: decoding a command's word gives the command back, for every command and every operand value
the encoding admits. -/
def Obligations.DecodeEncodeIsIdentity : Prop :=
  ∀ i : Instr, decode (encode i) = .ok i

/-- R67, R73: a word that decodes is the word of the command it decodes to, so no bit of it is ignored. -/
def Obligations.DecodedWordIsItsEncoding : Prop :=
  ∀ (c : Word) (i : Instr), decode c = .ok i → encode i = c

/-- R67: a word is legal iff exactly one row of R63 selects it, iff its fields pass the checks R67 lists;
every other word's `CMD` write responds `Err(3)` and changes no state. -/
def Obligations.LegalWordsAreExactlyTheTable : Prop :=
  ∀ (c : Word) (s : State),
    ((∃ i, decode c = .ok i) ↔ ∃! r : Row, r ∈ opcodeMap ∧ c &&& r.mask = r.pattern) ∧
    ((∃ i, decode c = .ok i) ↔ (fieldsOf c).wellFormed = true) ∧
    ((¬∃ i, decode c = .ok i) → hostWrite addrCmd c s = .next (respondErr .illegalCommand s))

/-- R73: the number of legal words is 6416. -/
def Obligations.LegalWordCount : Prop :=
  ∃ L : List Word, L.Nodup ∧ L.length = 6416 ∧ ∀ c, c ∈ L ↔ ∃ i, decode c = .ok i

/-! ### The six functions -/

/-- R95: the result of `Add_n` is the loop's, position by position: `c (n)` is the carry 0 into the least
significant digit and `c i` the carry out of position `i`. -/
def Obligations.AddIsTheCarryLoop : Prop :=
  ∀ (n : Nat) (a b : Digits n), ∃ c : Nat → Nat, c n = 0 ∧
    (∀ i : Fin n,
      let t := (a.get i).toNat + (b.get i).toNat + c (i.val + 1)
      t ≤ 2 ^ 33 - 1 ∧ ((addDigits a b).2.get i).toNat = t % 2 ^ 32 ∧ c i.val = t / 2 ^ 32) ∧
    (addDigits a b).1.toNat = c 0

/-- R96: the contract of `Add_n`. -/
def Obligations.AddContract : Prop :=
  ∀ (n : Nat) (a b : Digits n),
    val (addDigits a b).2 + (addDigits a b).1.toNat * 2 ^ (32 * n) = val a + val b ∧
    val (addDigits a b).2 = (val a + val b) % 2 ^ (32 * n) ∧
    ((addDigits a b).1 = 1 ↔ 2 ^ (32 * n) ≤ val a + val b)

/-- R99: commutativity of `Add`, the add/subtract inverse in the no-borrow case, and SROM's two examples. -/
def Obligations.AddCommutesAndUndoesSub : Prop :=
  (∀ (n : Nat) (a b : Digits n), addDigits a b = addDigits b a) ∧
  (∀ (n : Nat) (a b : Digits n), (subDigits a b).1 = 0 → addDigits (subDigits a b).2 b = (0, a)) ∧
  (∃ v, hexDecode ['1'] = .ok v ∧ val (addDigits v v).2 = 2) ∧
  (∃ v w, hexDecode (List.replicate 8 'f') = .ok v ∧ hexDecode ['1'] = .ok w ∧
    (addDigits v w).1 = 0 ∧ (addDigits v w).2.get 62 = 1 ∧ (addDigits v w).2.get 63 = 0 ∧
    val (addDigits v w).2 = 0x100000000)

/-- R105: the result of `Sub_n` is the loop's, with its signed intermediate. -/
def Obligations.SubIsTheBorrowLoop : Prop :=
  ∀ (n : Nat) (a b : Digits n), ∃ bw : Nat → Nat, bw n = 0 ∧
    (∀ i : Fin n,
      let t : Int := ((a.get i).toNat : Int) - (b.get i).toNat - bw (i.val + 1)
      (-(2 ^ 32 : Int) ≤ t ∧ t ≤ 2 ^ 32 - 1) ∧
      (if 0 ≤ t then (((subDigits a b).2.get i).toNat : Int) = t ∧ bw i.val = 0
        else (((subDigits a b).2.get i).toNat : Int) = t + 2 ^ 32 ∧ bw i.val = 1)) ∧
    (subDigits a b).1.toNat = bw 0

/-- R106: the contract of `Sub_n`. -/
def Obligations.SubContract : Prop :=
  ∀ (n : Nat) (a b : Digits n),
    (val (subDigits a b).2 : Int) - (subDigits a b).1.toNat * 2 ^ (32 * n) = (val a : Int) - val b ∧
    (val (subDigits a b).2 : Int) = ((val a : Int) - val b) % 2 ^ (32 * n) ∧
    ((subDigits a b).1 = 1 ↔ val a < val b)

/-- R90, R91: the comparator decides the order of magnitudes, and is SROM's definition through `Encode`. -/
def Obligations.CompareIsTheOrder : Prop :=
  ∀ (n : Nat) (a b : Digits n),
    (compareDigits a b = .less ↔ val a < val b) ∧
    (compareDigits a b = .equal ↔ val a = val b) ∧
    (compareDigits a b = .greater ↔ val b < val a) ∧
    compareDigits a b = compareByEncode a b ∧
    (hexEncode (subDigits a b).2 = ['0'] ↔ ∀ i : Fin n, (subDigits a b).2.get i = 0)

/-- R93: comparison consistency, and SROM's three examples. -/
def Obligations.CompareIsConsistent : Prop :=
  (∀ (n : Nat) (a b : Digits n), compareDigits a b = .greater ↔ compareDigits b a = .less) ∧
  (∀ (n : Nat) (a : Digits n), compareDigits a a = .equal) ∧
  ∃ v1 v2 v5, hexDecode ['1'] = .ok v1 ∧ hexDecode ['2'] = .ok v2 ∧ hexDecode ['5'] = .ok v5 ∧
    compareDigits v2 v1 = .greater ∧ compareDigits v1 v2 = .less ∧ compareDigits v5 v5 = .equal

/-- R113: `MulByDigit` is the loop's, position by position: digit `j` of `a` goes to digit `64 + j`, the
final carry to digit 63, and digits 0..62 stay zero. -/
def Obligations.MulByDigitIsTheLoop : Prop :=
  ∀ (a : Narrow) (m : Digit), ∃ c : Nat → Nat, c 64 = 0 ∧
    (∀ j : Fin 64,
      let t := (a.get j).toNat * m.toNat + c (j.val + 1)
      t ≤ 2 ^ 64 - 2 ^ 32 - 1 ∧ c j.val = t / 2 ^ 32 ∧
      ((mulByDigit a m).get ⟨64 + j.val, by omega⟩).toNat = t % 2 ^ 32) ∧
    ((mulByDigit a m).get 63).toNat = c 0 ∧
    (∀ i : Fin 128, i.val < 63 → (mulByDigit a m).get i = 0)

/-- R116: `MulByDigit` is exact, and its product is below `2^2080`. -/
def Obligations.MulByDigitIsExact : Prop :=
  ∀ (a : Narrow) (m : Digit), val (mulByDigit a m) = val a * m.toNat ∧ val (mulByDigit a m) < 2 ^ 2080

/-- R120: every digit of `ShiftDigitsLeft(buf, p)` for `0 <= p <= 128`, and its magnitude. -/
def Obligations.ShiftMovesDigits : Prop :=
  ∀ (buf : Wide) (p : Nat), p ≤ 128 → ∃ r, shiftDigitsLeft buf p = some r ∧
    (∀ i : Fin 128, (h : i.val + p ≤ 127) → r.get i = buf.get ⟨i.val + p, by omega⟩) ∧
    (∀ i : Fin 128, 128 - p ≤ i.val → r.get i = 0) ∧
    val r = val buf * 2 ^ (32 * p) % 2 ^ 4096

/-- R121: the function has a value for every count 0..128, zero at 128, and refuses every other count; a
command's count is at most 127. -/
def Obligations.ShiftRefusesOtherCounts : Prop :=
  (∀ (buf : Wide) (p : Int), p < 0 ∨ 128 < p → shiftDigitsLeft buf p = none) ∧
  (∀ (buf : Wide) (p : Int), 0 ≤ p → p ≤ 128 → ∃ r, shiftDigitsLeft buf p = some r) ∧
  (∀ buf : Wide, shiftDigitsLeft buf 128 = some (zero 128)) ∧
  (∀ (c : Word) (rd ra : WReg) (p : Fin 128), decode c = .ok (.shld rd ra p) →
    (c.extractLsb' 0 8).toNat = p.val ∧ p.val ≤ 127)

/-- R129: `Multiply` is exact, for all operands. No step loses anything: after the first `i` digits of `b`
the running total is `val(a)` times those digits read as a number, at their place value, each aligned partial
product is exact, and the carry of the next accumulation is 0. -/
def Obligations.MultiplyIsExact : Prop :=
  ∀ a b : Narrow, val (multiply a b) = val a * val b ∧
    ∀ i : Fin 64,
      val (accumulate a b ((List.finRange 64).take i.val) (zero 128))
        = val a * listVal (b.list.take i.val) * 2 ^ (32 * (64 - i.val)) ∧
      val (alignedProduct a b i) = val a * (b.get i).toNat * 2 ^ (32 * (63 - i.val)) ∧
      (addDigits (accumulate a b ((List.finRange 64).take i.val) (zero 128)) (alignedProduct a b i)).1 = 0

/-- R132: distributivity when `Add_64(b, c)` has carry-out 0; then the wide sum also has carry-out 0. -/
def Obligations.MultiplyDistributes : Prop :=
  ∀ a b c : Narrow, (addDigits b c).1 = 0 →
    addDigits (multiply a b) (multiply a c) = (0, multiply a (addDigits b c).2)

/-! ### The seven commands: completion, result, frame -/

/-- R97: `ADD` completes in every state; `N[rd]` and `CB` take the sum of the values read, and nothing else
changes. When the sources have values they are the operands and no free value is drawn. -/
def Obligations.AddCommand : Prop :=
  ∀ (rd ra rb : NReg) (s : State), ∃ (t : State) (a b : Narrow),
    exec (.add rd ra rb) s = .next t ∧
    ReadsAs (s.nWritten.get ra) (s.n.get ra) a ∧ ReadsAs (s.nWritten.get rb) (s.n.get rb) b ∧
    val (t.n.get rd) + t.cb.toNat * 2 ^ 2048 = val a + val b ∧ allWritten (t.nWritten.get rd) = true ∧
    KeepsNExcept rd s t ∧ KeepsW s t ∧ t.cmp = s.cmp ∧ KeepsStream s t ∧
    (SourcesWritten (.add rd ra rb) s → a = s.n.get ra ∧ b = s.n.get rb ∧ t.draws = s.draws)

/-- R98: `ADDW` likewise, over the wide file. -/
def Obligations.AddwCommand : Prop :=
  ∀ (rd ra rb : WReg) (s : State), ∃ (t : State) (a b : Wide),
    exec (.addw rd ra rb) s = .next t ∧
    ReadsAs (s.wWritten.get ra) (s.w.get ra) a ∧ ReadsAs (s.wWritten.get rb) (s.w.get rb) b ∧
    val (t.w.get rd) + t.cb.toNat * 2 ^ 4096 = val a + val b ∧ allWritten (t.wWritten.get rd) = true ∧
    KeepsWExcept rd s t ∧ KeepsN s t ∧ t.cmp = s.cmp ∧ KeepsStream s t ∧
    (SourcesWritten (.addw rd ra rb) s → a = s.w.get ra ∧ b = s.w.get rb ∧ t.draws = s.draws)

/-- R107: `SUB` completes in every state; `N[rd]` is the difference, wrapped when `N[ra]` is the smaller,
and `CB` says whether it is. -/
def Obligations.SubCommand : Prop :=
  ∀ (rd ra rb : NReg) (s : State), ∃ (t : State) (a b : Narrow),
    exec (.sub rd ra rb) s = .next t ∧
    ReadsAs (s.nWritten.get ra) (s.n.get ra) a ∧ ReadsAs (s.nWritten.get rb) (s.n.get rb) b ∧
    val (t.n.get rd) + val b = val a + t.cb.toNat * 2 ^ 2048 ∧ (t.cb = 1 ↔ val a < val b) ∧
    allWritten (t.nWritten.get rd) = true ∧
    KeepsNExcept rd s t ∧ KeepsW s t ∧ t.cmp = s.cmp ∧ KeepsStream s t ∧
    (SourcesWritten (.sub rd ra rb) s → a = s.n.get ra ∧ b = s.n.get rb ∧ t.draws = s.draws)

/-- R92: `CMP` completes in every state; the field takes the code of the order of the values read, and `CB`
and every register keep theirs. -/
def Obligations.CmpCommand : Prop :=
  ∀ (ra rb : NReg) (s : State), ∃ (t : State) (a b : Narrow),
    exec (.cmp ra rb) s = .next t ∧
    ReadsAs (s.nWritten.get ra) (s.n.get ra) a ∧ ReadsAs (s.nWritten.get rb) (s.n.get rb) b ∧
    t.cmp = (if val a < val b then 0b11 else if val a = val b then 0b00 else 0b01) ∧
    KeepsN s t ∧ KeepsW s t ∧ t.cb = s.cb ∧ KeepsStream s t ∧
    (SourcesWritten (.cmp ra rb) s → a = s.n.get ra ∧ b = s.n.get rb ∧ t.draws = s.draws)

/-- R115: `MULD` completes in every state; `W[rd]` is the exact product of `N[ra]` and digit `k` of `N[rb]`,
its 63 high digits 0 whatever they held; no flag is written. -/
def Obligations.MuldCommand : Prop :=
  ∀ (rd : WReg) (ra rb : NReg) (k : Fin 64) (s : State), ∃ (t : State) (a : Narrow) (m : Digit),
    exec (.muld rd ra rb k) s = .next t ∧
    ReadsAs (s.nWritten.get ra) (s.n.get ra) a ∧
    ((s.nWritten.get rb).get k = true → m = (s.n.get rb).get k) ∧
    val (t.w.get rd) = val a * m.toNat ∧ (∀ j : Fin 128, j.val < 63 → (t.w.get rd).get j = 0) ∧
    allWritten (t.wWritten.get rd) = true ∧
    KeepsWExcept rd s t ∧ KeepsN s t ∧ t.cb = s.cb ∧ t.cmp = s.cmp ∧ KeepsStream s t ∧
    (SourcesWritten (.muld rd ra rb k) s → a = s.n.get ra ∧ t.draws = s.draws)

/-- R122: `SHLD` completes in every state; every digit of `W[rd]` is the one `p` slots lower in
significance, or 0; no flag is written, also when digits are lost. -/
def Obligations.ShldCommand : Prop :=
  ∀ (rd ra : WReg) (p : Fin 128) (s : State), ∃ (t : State) (a : Wide),
    exec (.shld rd ra p) s = .next t ∧
    ReadsAs (s.wWritten.get ra) (s.w.get ra) a ∧
    (∀ i : Fin 128, (t.w.get rd).get i = if h : i.val + p.val ≤ 127 then a.get ⟨i.val + p.val, by omega⟩ else 0) ∧
    allWritten (t.wWritten.get rd) = true ∧
    KeepsWExcept rd s t ∧ KeepsN s t ∧ t.cb = s.cb ∧ t.cmp = s.cmp ∧ KeepsStream s t ∧
    (SourcesWritten (.shld rd ra p) s → a = s.w.get ra ∧ t.draws = s.draws)

/-- R130: `MUL` completes in every state; `W[rd]` is the exact product, its old value does not enter, and no
flag and no other register is written. -/
def Obligations.MulCommand : Prop :=
  ∀ (rd : WReg) (ra rb : NReg) (s : State), ∃ (t : State) (a b : Narrow),
    exec (.mul rd ra rb) s = .next t ∧
    ReadsAs (s.nWritten.get ra) (s.n.get ra) a ∧ ReadsAs (s.nWritten.get rb) (s.n.get rb) b ∧
    val (t.w.get rd) = val a * val b ∧ allWritten (t.wWritten.get rd) = true ∧
    KeepsWExcept rd s t ∧ KeepsN s t ∧ t.cb = s.cb ∧ t.cmp = s.cmp ∧ KeepsStream s t ∧
    (SourcesWritten (.mul rd ra rb) s → a = s.n.get ra ∧ b = s.n.get rb ∧ t.draws = s.draws)

/-- R33, R167: the result of a command is a function of its word and of its source registers alone. -/
def Obligations.ResultDependsOnSourcesOnly : Prop :=
  ∀ (i : Instr) (s s' : State), SourcesAgree i s s' →
    ∃ t t', exec i s = .next t ∧ exec i s' = .next t' ∧ ResultsAgree i t t'

/-! ### Registers and flags over one step -/

/-- R26: only `ADD`, `ADDW`, `SUB` (and reset) write `CB`. -/
def Obligations.OnlyAddAndSubWriteCB : Prop :=
  ∀ s t : State, step s = .next t → t.cb ≠ s.cb →
    (∃ rest, s.pending = .reset :: rest) ∨
    ∃ c rest, s.pending = .write addrCmd c :: rest ∧
      ((∃ rd ra rb, decode c = .ok (.add rd ra rb)) ∨ (∃ rd ra rb, decode c = .ok (.addw rd ra rb)) ∨
        (∃ rd ra rb, decode c = .ok (.sub rd ra rb)))

/-- R27: only `CMP` (and reset) writes the `CMP` field. -/
def Obligations.OnlyCmpWritesCMP : Prop :=
  ∀ s t : State, step s = .next t → t.cmp ≠ s.cmp →
    (∃ rest, s.pending = .reset :: rest) ∨
    ∃ c rest ra rb, s.pending = .write addrCmd c :: rest ∧ decode c = .ok (.cmp ra rb)

/-- R24: the narrow file is written only by `ADD`, `SUB`, a host write of one of its digits (and reset). -/
def Obligations.WritersOfTheNarrowFile : Prop :=
  ∀ s t : State, step s = .next t → ¬KeepsN s t →
    (∃ rest, s.pending = .reset :: rest) ∨
    (∃ r k v rest, s.pending = .write (addrN r k) v :: rest) ∨
    ∃ c rest, s.pending = .write addrCmd c :: rest ∧
      ((∃ rd ra rb, decode c = .ok (.add rd ra rb)) ∨ (∃ rd ra rb, decode c = .ok (.sub rd ra rb)))

/-- R25: the wide file is written only by `ADDW`, `MULD`, `SHLD`, `MUL`, a host write of one of its digits
(and reset). -/
def Obligations.WritersOfTheWideFile : Prop :=
  ∀ s t : State, step s = .next t → ¬KeepsW s t →
    (∃ rest, s.pending = .reset :: rest) ∨
    (∃ r k v rest, s.pending = .write (addrW r k) v :: rest) ∨
    ∃ c rest, s.pending = .write addrCmd c :: rest ∧
      ((∃ rd ra rb, decode c = .ok (.addw rd ra rb)) ∨ (∃ rd ra rb k, decode c = .ok (.muld rd ra rb k)) ∨
        (∃ rd ra p, decode c = .ok (.shld rd ra p)) ∨ (∃ rd ra rb, decode c = .ok (.mul rd ra rb)))

/-- R34, R48: a digit that has been written stays written until a reset. -/
def Obligations.WrittenDigitsStayWritten : Prop :=
  ∀ s t : State, step s = .next t → (¬∃ rest, s.pending = .reset :: rest) →
    (∀ (r : NReg) (k : Fin 64), (s.nWritten.get r).get k = true → (t.nWritten.get r).get k = true) ∧
    (∀ (r : WReg) (k : Fin 128), (s.wWritten.get r).get k = true → (t.wWritten.get r).get k = true)

/-- R34, U1: what is stored in a digit that nothing has written since reset is never observed. Two states
that differ only there step to two states that differ only there, with the same responses. -/
def Obligations.UnwrittenDigitsAreNeverObserved : Prop :=
  ∀ s s' t : State, SameWritten s s' → step s = .next t → ∃ t', step s' = .next t' ∧ SameWritten t t'

/-- R27: every step keeps the `CMP` field a code that a comparison produces. -/
def Obligations.StepKeepsCmpLegal : Prop :=
  ∀ s t : State, s.CmpLegal → step s = .next t → t.CmpLegal

/-- R27, R34: the field is such a code at reset. -/
def Obligations.ResetCmpLegal : Prop := State.reset.CmpLegal

/-! ### Reset and STATUS -/

/-- R34: the reset values the spec gives; every data digit is unwritten, and a command or a host read that
reads one still completes, with a value nothing constrains (the model's choice among R34's two: log entry 1). -/
def Obligations.ResetStateOfFlagsAndDigits : Prop :=
  State.reset.cb = 0 ∧ State.reset.cmp = 0b00 ∧ statusWord State.reset = 0x00000000 ∧
  (∀ (r : NReg) (k : Fin 64), (State.reset.nWritten.get r).get k = false) ∧
  (∀ (r : WReg) (k : Fin 128), (State.reset.wWritten.get r).get k = false)

/-- R160: after the reset event the block's state is that of reset, from every state; the host's stream goes
on with its next event (log entry 8). -/
def Obligations.ResetEventRestoresResetState : Prop :=
  ∀ (s : State) (rest : List Event), s.pending = .reset :: rest → ∃ t, step s = .next t ∧
    t.cb = 0 ∧ t.cmp = 0b00 ∧ statusWord t = 0x00000000 ∧
    (∀ (r : NReg) (k : Fin 64), (t.nWritten.get r).get k = false) ∧
    (∀ (r : WReg) (k : Fin 128), (t.wWritten.get r).get k = false) ∧
    t.pending = rest ∧ t.responses = s.responses

/-- R28: `STATUS` is `CB + 2*CMP`, bits 31:3 zero; its legal values; a host read answers it and changes
nothing; a host write responds `Err(2)` and changes nothing; its reset value. -/
def Obligations.StatusRegister : Prop :=
  (∀ s : State, (statusWord s).toNat = s.cb.toNat + 2 * s.cmp.toNat ∧
    (statusWord s).getLsbD 0 = s.cb.getLsbD 0 ∧ (statusWord s).extractLsb' 1 2 = s.cmp ∧
    (statusWord s).extractLsb' 3 29 = 0 ∧
    (s.CmpLegal → statusWord s ∈ ([0, 1, 2, 3, 6, 7] : List Digit)) ∧
    hostRead 0x401 s = respond (.okData (statusWord s)) s ∧
    (∀ v, hostWrite 0x401 v s = .next (respondErr .accessKind s))) ∧
  statusWord State.reset = 0x00000000

/-! ### The host port -/

/-- R42: the address map, every address of it. -/
def Obligations.AddressMap : Prop :=
  (∀ (r : NReg) (k : Fin 64) (a : Addr), a.toNat = 0x000 + 0x40 * r.val + k.val ↔ region a = .narrow r k) ∧
  (∀ (r : WReg) (k : Fin 128) (a : Addr), a.toNat = 0x200 + 0x80 * r.val + k.val ↔ region a = .wide r k) ∧
  (∀ a : Addr, a = 0x400 ↔ region a = .cmd) ∧
  (∀ a : Addr, a = 0x401 ↔ region a = .status) ∧
  (∀ a : Addr, Unmapped a ↔ region a = .unmapped)

/-- R54: the procedure for a host access, address range by address range (of the digits, those that have been
written; the others are the next statement's). -/
def Obligations.HostAccessProcedure : Prop :=
  ∀ (a : Addr) (v : Digit) (s : State),
    (a ≤ 0x0FF →
      let r : NReg := (a.extractLsb' 6 2).toFin
      let k : Fin 64 := (a.extractLsb' 0 6).toFin
      ((s.nWritten.get r).get k = true → hostRead a s = respond (.okData ((s.n.get r).get k)) s) ∧
      hostWrite a v s = .next (respond .ok (writeNDigit r k v s))) ∧
    (0x200 ≤ a ∧ a ≤ 0x3FF →
      let r : WReg := (a.extractLsb' 7 2).toFin
      let k : Fin 128 := (a.extractLsb' 0 7).toFin
      ((s.wWritten.get r).get k = true → hostRead a s = respond (.okData ((s.w.get r).get k)) s) ∧
      hostWrite a v s = .next (respond .ok (writeWDigit r k v s))) ∧
    (a = 0x401 → hostRead a s = respond (.okData (statusWord s)) s ∧
      hostWrite a v s = .next (respondErr .accessKind s)) ∧
    (a = 0x400 → hostRead a s = respondErr .accessKind s ∧ hostWrite a v s = execute Config.hasSubw v s) ∧
    (Unmapped a → hostRead a s = respondErr .unmapped s ∧ hostWrite a v s = .next (respondErr .unmapped s))

/-- R34, U1: a host read of any digit, also of one nothing has written, answers data and leaves the block's
registers and flags as they were (that it answers at all is the model's choice among R34's two: log entry 1). -/
def Obligations.EveryDigitReadAnswersData : Prop :=
  ∀ (a : Addr) (s : State), (a ≤ 0x0FF ∨ (0x200 ≤ a ∧ a ≤ 0x3FF)) →
    ∃ d m, hostRead a s = respond (.okData d) { s with draws := m }

/-- R46, R47, R48: after a host write of a digit, a read of that address answers the written word, a read of
every other address answers what it answered before, and `CB` and `CMP` are as they were. For an address whose
digit nothing has written since reset the spec leaves that answer open (R34, R48); that it is the same free value
before and after is the model's choice, which numbers reads and not writes (log entry 1). -/
def Obligations.HostWriteThenRead : Prop :=
  ∀ (a b : Addr) (v : Digit) (s : State), (a ≤ 0x0FF ∨ (0x200 ≤ a ∧ a ≤ 0x3FF)) →
    ∃ t, hostWrite a v s = .next t ∧ answer a t = some (.okData v) ∧
      (b ≠ a → answer b t = answer b s) ∧ t.cb = s.cb ∧ t.cmp = s.cmp

/-- R141: an access errs in exactly three cases, each with its code; it records nothing anywhere, so the
state after it is the state before it but for the host's stream. -/
def Obligations.ErrorResponses : Prop :=
  ErrCause.unmapped.code = 1 ∧ ErrCause.accessKind.code = 2 ∧ ErrCause.illegalCommand.code = 3 ∧
  ∀ (s t : State) (e : Event) (rest : List Event) (c : ErrCause),
    s.pending = e :: rest → step s = .next t →
    (t.responses = s.responses ++ [.err c] ↔
      match c with
      | .unmapped => ∃ a, Unmapped a ∧ (e = .read a ∨ ∃ v, e = .write a v)
      | .accessKind => e = .read 0x400 ∨ ∃ v, e = .write 0x401 v
      | .illegalCommand => ∃ w, e = .write 0x400 w ∧ ¬∃ i, decode w = .ok i) ∧
    (t.responses = s.responses ++ [.err c] →
      t = { s with pending := rest, responses := s.responses ++ [.err c] })

/-- R140, R144: no step ever stops. The hardware continues after an error, and no legal command faults. -/
def Obligations.StepNeverStops : Prop :=
  (∀ (i : Instr) (s : State), ∃ t, exec i s = .next t) ∧ (∀ s : State, ∃ t, step s = .next t)

/-- R41, R48: each access is taken in the order the host issues it and gets exactly one response; with none
pending the block holds its state (R153; the model's choice, log entry 5). -/
def Obligations.OneResponsePerAccess : Prop :=
  ∀ s t : State, step s = .next t →
    (∀ e rest, s.pending = e :: rest →
      t.pending = rest ∧
      (e ≠ .reset → ∃ r, t.responses = s.responses ++ [r]) ∧ (e = .reset → t.responses = s.responses)) ∧
    (s.pending = [] → t = s)

/-- R166, D30: every run of the host's stream ends, after as many steps as it has events. -/
def Obligations.EveryRunEnds : Prop :=
  ∀ s : State, ∃ t, run s.pending.length s = .next t ∧ t.pending = []

/-- R144: the reading in which an `Err` response is a fault of the run stops exactly where `step` records
an error, and is `step` everywhere else. -/
def Obligations.StrictStepFaultsOnErrors : Prop :=
  ∀ s t : State, step s = .next t →
    ((∃ c, t.responses = s.responses ++ [.err c] ∧ strictStep s = .fault (.errResponse c)) ∨
      ((¬∃ c, t.responses = s.responses ++ [.err c]) ∧ strictStep s = .next t))

/-- R68: with `HAS_SUBW` false the reserved words respond `Err(3)`; with it true they run as R68 says (the argument
of `execute`: log entry 9). That they run on sources nothing has written (R162), and that the two runs from the one
state read the same values `a` and `b` there (R34), is the model's choice (log entry 1). -/
def Obligations.ReservedOpcodes : Prop :=
  ∀ (rd ra rb : WReg) (s : State),
    let cs : Word := .ofNat 32 (0x08000000 + rd.val * 2 ^ 20 + ra.val * 2 ^ 16 + rb.val * 2 ^ 12)
    let cc : Word := .ofNat 32 (0x09000000 + ra.val * 2 ^ 16 + rb.val * 2 ^ 12)
    Config.hasSubw = false ∧
    execute Config.hasSubw cs s = .next (respondErr .illegalCommand s) ∧
    execute Config.hasSubw cc s = .next (respondErr .illegalCommand s) ∧
    ∃ a b t u, ReadsAs (s.wWritten.get ra) (s.w.get ra) a ∧ ReadsAs (s.wWritten.get rb) (s.w.get rb) b ∧
      execute true cs s = .next (respond .ok t) ∧ execute true cc s = .next (respond .ok u) ∧
      t.w.get rd = (subDigits a b).2 ∧ t.cb = (subDigits a b).1 ∧
      KeepsWExcept rd s t ∧ KeepsN s t ∧ t.cmp = s.cmp ∧ KeepsStream s t ∧
      u.cmp = (compareDigits a b).enc ∧ KeepsW s u ∧ KeepsN s u ∧ u.cb = s.cb ∧ KeepsStream s u

/-! ### The directives and R131 -/

/-- R72: `SETN` gives the register the value, and changes nothing else of the block. -/
def Obligations.SetnLoadsTheValue : Prop :=
  ∀ (r : NReg) (x : Nat) (s : State) (rest : List Event), x < 2 ^ 2048 → s.pending = setN r x ++ rest →
    ∃ t, run 64 s = .next t ∧ val (t.n.get r) = x ∧ allWritten (t.nWritten.get r) = true ∧
      KeepsNExcept r s t ∧ KeepsW s t ∧ t.cb = s.cb ∧ t.cmp = s.cmp ∧ t.draws = s.draws ∧
      t.pending = rest ∧ t.responses = s.responses ++ List.replicate 64 .ok

/-- R72: `SETW` likewise. -/
def Obligations.SetwLoadsTheValue : Prop :=
  ∀ (r : WReg) (x : Nat) (s : State) (rest : List Event), x < 2 ^ 4096 → s.pending = setW r x ++ rest →
    ∃ t, run 128 s = .next t ∧ val (t.w.get r) = x ∧ allWritten (t.wWritten.get r) = true ∧
      KeepsWExcept r s t ∧ KeepsN s t ∧ t.cb = s.cb ∧ t.cmp = s.cmp ∧ t.draws = s.draws ∧
      t.pending = rest ∧ t.responses = s.responses ++ List.replicate 128 .ok

/-- R43, R72: `GETN` and `GETW` of a register that has a value answer its digits, most significant first,
and change nothing of the block. -/
def Obligations.GetReadsTheDigits : Prop :=
  (∀ (r : NReg) (s : State) (rest : List Event), allWritten (s.nWritten.get r) = true →
    s.pending = getN r ++ rest →
    run 64 s = .next { s with pending := rest,
                                   responses := s.responses ++ (s.n.get r).list.map .okData }) ∧
  (∀ (r : WReg) (s : State) (rest : List Event), allWritten (s.wWritten.get r) = true →
    s.pending = getW r ++ rest →
    run 128 s = .next { s with pending := rest,
                                    responses := s.responses ++ (s.w.get r).list.map .okData })

/-- R72, R81, R87: `SETN` with a hex string. When the string decodes, its 64 accesses give the register the number
the string spells, and change nothing else of the block; when it fails, there is no access, and the failure is
`Decode`'s (the values of hex characters: log entry 10). -/
def Obligations.SetnOfHexString : Prop :=
  ∀ (r : NReg) (str : List Char),
    (∀ e, setNHex r str = .error e ↔ hexDecode str = .error e) ∧
    (∀ x, str.length ≤ 512 → spells 0 str = some x → ∃ evs, setNHex r str = .ok evs ∧ evs.length = 64 ∧
      ∀ (s : State) (rest : List Event), s.pending = evs ++ rest →
        ∃ t, run 64 s = .next t ∧ val (t.n.get r) = x ∧ allWritten (t.nWritten.get r) = true ∧
          KeepsNExcept r s t ∧ KeepsW s t ∧ t.cb = s.cb ∧ t.cmp = s.cmp ∧
          t.pending = rest ∧ t.responses = s.responses ++ List.replicate 64 .ok)

/-- R43, R72: the value a `GETN` or `GETW` reads is `val` of the register that has a value; so reading after
loading gives the value loaded. -/
def Obligations.GetReadsTheValue : Prop :=
  (∀ (r : NReg) (s : State) (rest : List Event), allWritten (s.nWritten.get r) = true →
    s.pending = getN r ++ rest → ∃ t, run 64 s = .next t ∧
      valueRead (t.responses.drop s.responses.length) = some (val (s.n.get r))) ∧
  (∀ (r : WReg) (s : State) (rest : List Event), allWritten (s.wWritten.get r) = true →
    s.pending = getW r ++ rest → ∃ t, run 128 s = .next t ∧
      valueRead (t.responses.drop s.responses.length) = some (val (s.w.get r))) ∧
  (∀ (r : NReg) (x : Nat) (s : State) (rest : List Event), x < 2 ^ 2048 →
    s.pending = setN r x ++ (getN r ++ rest) → ∃ t, run 128 s = .next t ∧ t.pending = rest ∧
      valueRead (t.responses.drop (s.responses.length + 64)) = some x) ∧
  (∀ (r : WReg) (x : Nat) (s : State) (rest : List Event), x < 2 ^ 4096 →
    s.pending = setW r x ++ (getW r ++ rest) → ∃ t, run 256 s = .next t ∧ t.pending = rest ∧
      valueRead (t.responses.drop (s.responses.length + 128)) = some x)

/-- R131: `MUL Wd, Na, Nb` leaves in `W[rd]` what the host-driven program leaves in `Wd`, for any `Wt`
different from `Wd`; the program also leaves its last partial product in `Wt`, and `CB = 0`, while `MUL`
changes neither. -/
def Obligations.MulEqualsHostDrivenProgram : Prop :=
  ∀ (wd wt : WReg) (na nb : NReg) (s : State) (rest : List Event), wt ≠ wd →
    SourcesWritten (.mul wd na nb) s → s.pending = hostMultiply wd wt na nb ++ rest →
    ∃ t u, run (hostMultiply wd wt na nb).length s = .next t ∧ exec (.mul wd na nb) s = .next u ∧
      t.w.get wd = u.w.get wd ∧ t.w.get wt = mulByDigit (s.n.get na) ((s.n.get nb).get 63) ∧
      t.cb = 0 ∧ t.cmp = s.cmp ∧ KeepsN s t ∧ t.pending = rest ∧
      (∀ q, q ≠ wd → q ≠ wt → t.w.get q = s.w.get q ∧ t.wWritten.get q = s.wWritten.get q) ∧
      u.cb = s.cb ∧ u.w.get wt = s.w.get wt

/-! ### Host software: the hex codec and the assembler -/

/-- R85: `Encode(v) = "0"` iff every digit is 0, iff `val(v) = 0`; any other output has at least 8
characters. -/
def Obligations.EncodeZeroTest : Prop :=
  ∀ (n : Nat) (v : Digits n),
    (hexEncode v = ['0'] ↔ ∀ i : Fin n, v.get i = 0) ∧ (hexEncode v = ['0'] ↔ val v = 0) ∧
    (hexEncode v ≠ ['0'] → 8 ≤ (hexEncode v).length)

/-- R81, R82: `Decode` fails `OutOfRange` iff the string is longer than 512, fails `ParseError` iff it is not
and has a non-hex character, and otherwise answers the number the string spells. -/
def Obligations.DecodeHexStrings : Prop :=
  ∀ s : List Char,
    (hexDecode s = .error .outOfRange ↔ 512 < s.length) ∧
    (hexDecode s = .error .parseError ↔ s.length ≤ 512 ∧ ∃ c ∈ s, hexValue c = none) ∧
    (∀ v, hexDecode s = .ok v ↔ s.length ≤ 512 ∧ spells 0 s = some (val v)) ∧
    hexDecode [] = .ok (zero 64)

/-- R86: the round trip of the codec through at most 512 characters that spell the value, the zero identity,
and when the reverse round trip holds. -/
def Obligations.CodecRoundTrip : Prop :=
  (∀ v : Narrow, hexDecode (hexEncode v) = .ok v ∧ (hexEncode v).length ≤ 512 ∧
    spells 0 (hexEncode v) = some (val v)) ∧
  hexEncode (zero 64) = ['0'] ∧ hexEncode (zero 128) = ['0'] ∧
  hexDecode [] = .ok (zero 64) ∧ hexDecode ['0'] = .ok (zero 64) ∧
  (∀ (s : List Char) (v : Narrow), hexDecode s = .ok v →
    (hexEncode v = s ↔ ∃ u : Narrow, hexEncode u = s)) ∧
  (∃ v, hexDecode ['1'] = .ok v ∧ hexEncode v = ['0', '0', '0', '0', '0', '0', '0', '1'])

/-- R83, R84 (conflict C2: the first group is padded too): a non-zero value encodes as one 8-character group
for each digit from its first non-zero one, so the output's length is a multiple of 8. -/
def Obligations.EncodeEmitsWholeGroups : Prop :=
  ∀ (n : Nat) (v : Digits n), val v ≠ 0 →
    ∃ i : Fin n, v.get i ≠ 0 ∧ (∀ j : Fin n, j < i → v.get j = 0) ∧
      (hexEncode v).length = 8 * (n - i.val) ∧ spells 0 (hexEncode v) = some (val v)

/-- R71: a command written in the assembler's syntax assembles to that command. -/
def Obligations.AssemblerReadsItsSyntax : Prop :=
  ∀ i : Instr, assembleLine (asmText i) = .command i
end

