-- ==== Sys2Proof/Laws/Slots.lean ====
section
/-! SUPPORT. The laws of a fixed-length array of slots: read after write, and equality slot by slot. -/

namespace Sys2Proof.Slots

variable {α : Type} {n : Nat}

theorem ext_list {v w : Slots α n} (h : v.list = w.list) : v = w := by
  cases v; cases w; simp_all

theorem ext_get {v w : Slots α n} (h : ∀ i, v.get i = w.get i) : v = w := by
  apply ext_list
  apply List.ext_getElem (v.size.trans w.size.symm)
  intro i hv hw
  exact h ⟨i, by rw [← v.size]; exact hv⟩

@[simp] theorem get_set_self (v : Slots α n) (i : Fin n) (x : α) : (v.set i x).get i = x := by
  simp [get, set]

theorem get_set_ne (v : Slots α n) {i j : Fin n} (x : α) (h : i ≠ j) : (v.set i x).get j = v.get j := by
  simp [get, set, Fin.val_ne_of_ne h]

theorem get_set (v : Slots α n) (i j : Fin n) (x : α) :
    (v.set i x).get j = if i = j then x else v.get j := by
  by_cases h : i = j
  · subst h; simp
  · simp [h, get_set_ne]

@[simp] theorem get_fill (x : α) (i : Fin n) : (fill n x).get i = x := by
  simp [get, fill]

@[simp] theorem set_set (v : Slots α n) (i : Fin n) (x y : α) : (v.set i x).set i y = v.set i y :=
  ext_list (by simp [set])

@[simp] theorem set_get (v : Slots α n) (i : Fin n) : v.set i (v.get i) = v :=
  ext_list (by simp [set, get])

theorem get_eq_getElem (v : Slots α n) (i : Fin n) : v.get i = v.list[i.val]'(by rw [v.size]; exact i.isLt) := rfl

end Sys2Proof.Slots
end

