-- ==== Sys2Proof/Laws/Val.lean ====
section
/-! SUPPORT. The magnitude of digit arrays (spec/00_scope.md R9): bounds, append, injectivity, and that
`digitsOf` is its inverse. -/

namespace Sys2Proof

theorem listVal_append (xs ys : List Digit) :
    listVal (xs ++ ys) = listVal xs * 2 ^ (32 * ys.length) + listVal ys := by
  induction xs with
  | nil => simp [listVal]
  | cons x xs ih =>
    simp only [List.cons_append, listVal, List.length_append, ih]
    rw [Nat.mul_add, pow_add]
    ring

theorem listVal_lt (xs : List Digit) : listVal xs < 2 ^ (32 * xs.length) := by
  induction xs with
  | nil => simp [listVal]
  | cons x xs ih =>
    have hx : x.toNat + 1 ≤ 2 ^ 32 := x.isLt
    have h := Nat.mul_le_mul_right (2 ^ (32 * xs.length)) hx
    simp only [listVal, List.length_cons, Nat.mul_add, pow_add, Nat.mul_one]
    rw [Nat.add_mul] at h
    rw [Nat.mul_comm (2 ^ (32 * xs.length))]
    omega

theorem listVal_replicate_zero (n : Nat) : listVal (List.replicate n 0) = 0 := by
  induction n with
  | zero => rfl
  | succ n ih => simpa [List.replicate_succ, listVal] using ih

theorem listVal_inj : ∀ {xs ys : List Digit}, xs.length = ys.length → listVal xs = listVal ys → xs = ys
  | [], [], _, _ => rfl
  | x :: xs, y :: ys, hl, hv => by
    have hl' : xs.length = ys.length := by simpa using hl
    have hx := listVal_lt xs
    have hy := listVal_lt ys
    rw [← hl'] at hy
    simp only [listVal, ← hl'] at hv
    have hd : x.toNat = y.toNat := by
      have h1 := congrArg (· / 2 ^ (32 * xs.length)) hv
      have hp : 0 < 2 ^ (32 * xs.length) := by positivity
      simpa [Nat.mul_comm _ (2 ^ (32 * xs.length)), Nat.mul_add_div hp, Nat.div_eq_of_lt hx,
        Nat.div_eq_of_lt hy] using h1
    rw [hd] at hv
    rw [BitVec.eq_of_toNat_eq hd, listVal_inj hl' (Nat.add_left_cancel hv)]

variable {n : Nat}

theorem val_lt (v : Digits n) : val v < 2 ^ (32 * n) := by
  have h := listVal_lt v.list
  rwa [v.size] at h

/-- Two values of one length are equal when their magnitudes are (R21). -/
theorem val_inj {v w : Digits n} (h : val v = val w) : v = w :=
  Slots.ext_list (listVal_inj (v.size.trans w.size.symm) h)

theorem listVal_digitList (n x : Nat) : listVal (digitList n x) = x % 2 ^ (32 * n) := by
  induction n with
  | zero => simp [digitList, listVal, Nat.mod_one]
  | succ n ih =>
    simp only [digitList, listVal, digitList_length, ih, BitVec.toNat_ofNat]
    rw [Nat.mul_add, Nat.mul_one, pow_add, Nat.mod_mul]
    ring

/-- `digits_n(x)` has magnitude `x` when `x` fits (R9). -/
theorem val_digitsOf (n x : Nat) : val (digitsOf n x) = x % 2 ^ (32 * n) := listVal_digitList n x

theorem digitsOf_val (v : Digits n) : digitsOf n (val v) = v :=
  val_inj (by rw [val_digitsOf, Nat.mod_eq_of_lt (val_lt v)])

@[simp] theorem val_zero (n : Nat) : val (zero n) = 0 := listVal_replicate_zero n

theorem listVal_eq_sum (xs : List Digit) :
    listVal xs = ∑ i : Fin xs.length, xs[i].toNat * 2 ^ (32 * (xs.length - 1 - i.val)) := by
  induction xs with
  | nil => rfl
  | cons x xs ih =>
    rw [listVal, ih]
    simp only [List.length_cons]
    rw [Fin.sum_univ_succ]
    simp
    apply Finset.sum_congr rfl
    intro i _
    congr 3
    omega

/-- R9's formula, digit by digit at its place value. -/
theorem val_eq_sum (v : Digits n) :
    val v = ∑ i : Fin n, (v.get i).toNat * 2 ^ (32 * (n - 1 - i.val)) := by
  obtain ⟨l, rfl⟩ := v
  exact listVal_eq_sum l

end Sys2Proof
end

