-- ==== Sys2Proof/Laws/Chain.lean ====
section
/-! SUPPORT. What one propagate chain computes, over lists of digits: the sums behind R96, R106 and R116. -/

namespace Sys2Proof.Machine

@[simp] theorem carryChain_nil {α : Type} (f : α → Nat → Nat × Digit) : carryChain f [] = (0, []) := rfl

theorem carryChain_cons {α : Type} (f : α → Nat → Nat × Digit) (x : α) (xs : List α) :
    carryChain f (x :: xs) =
      ((f x (carryChain f xs).1).1, (f x (carryChain f xs).1).2 :: (carryChain f xs).2) := rfl

/-- A step that splits `t` into carry and digit loses nothing. -/
theorem split_carry (t : Nat) : (BitVec.ofNat 32 t).toNat + t / 2 ^ 32 * 2 ^ 32 = t := by
  rw [BitVec.toNat_ofNat, Nat.mul_comm]
  exact Nat.mod_add_div t (2 ^ 32)

/-- One step of R95: `t` is at most `2^33 - 1`, so the carry stays 0 or 1. -/
theorem addStep_spec (d : Digit × Digit) {c : Nat} (hc : c ≤ 1) :
    (addStep d c).2.toNat + (addStep d c).1 * 2 ^ 32 = d.1.toNat + d.2.toNat + c ∧ (addStep d c).1 ≤ 1 := by
  refine ⟨split_carry _, ?_⟩
  have h1 := d.1.isLt
  have h2 := d.2.isLt
  simp only [addStep]
  omega

/-- One step of R105. -/
theorem subStep_spec (d : Digit × Digit) {bw : Nat} (hb : bw ≤ 1) :
    (subStep d bw).2.toNat + d.2.toNat + bw = d.1.toNat + (subStep d bw).1 * 2 ^ 32 ∧ (subStep d bw).1 ≤ 1 := by
  have h1 := d.1.isLt
  have h2 := d.2.isLt
  simp only [subStep]
  split <;> simp only [BitVec.toNat_ofInt] <;> omega

/-- One step of R113: `t` fits in 64 bits, so the carry stays below `2^32` (R114 (b)). -/
theorem mulStep_spec (m d : Digit) {c : Nat} (hc : c < 2 ^ 32) :
    (mulStep m d c).2.toNat + (mulStep m d c).1 * 2 ^ 32 = d.toNat * m.toNat + c ∧ (mulStep m d c).1 < 2 ^ 32 := by
  refine ⟨split_carry _, ?_⟩
  have h1 : d.toNat ≤ 2 ^ 32 - 1 := by have := d.isLt; omega
  have h2 : m.toNat ≤ 2 ^ 32 - 1 := by have := m.isLt; omega
  have h := Nat.mul_le_mul h1 h2
  simp only [mulStep]
  omega

theorem addChain_val : ∀ {xs ys : List Digit}, xs.length = ys.length →
    listVal (carryChain addStep (xs.zip ys)).2 + (carryChain addStep (xs.zip ys)).1 * 2 ^ (32 * xs.length)
      = listVal xs + listVal ys ∧ (carryChain addStep (xs.zip ys)).1 ≤ 1
  | [], [], _ => by simp [listVal]
  | x :: xs, y :: ys, h => by
    have hl : xs.length = ys.length := by simpa using h
    obtain ⟨ih, hc⟩ := addChain_val hl
    have hlen : (carryChain addStep (xs.zip ys)).2.length = xs.length := by
      simp [carryChain_length, hl]
    obtain ⟨hs, hc'⟩ := addStep_spec (x, y) hc
    refine ⟨?_, by simpa [carryChain_cons] using hc'⟩
    simp only [List.zip_cons_cons, carryChain_cons, listVal, hlen, ← hl, List.length_cons, Nat.mul_add, pow_add,
      Nat.mul_one]
    have := congrArg (· * 2 ^ (32 * xs.length)) hs
    simp only at this
    nlinarith

theorem subChain_val : ∀ {xs ys : List Digit}, xs.length = ys.length →
    listVal (carryChain subStep (xs.zip ys)).2 + listVal ys
      = listVal xs + (carryChain subStep (xs.zip ys)).1 * 2 ^ (32 * xs.length) ∧
    (carryChain subStep (xs.zip ys)).1 ≤ 1
  | [], [], _ => by simp [listVal]
  | x :: xs, y :: ys, h => by
    have hl : xs.length = ys.length := by simpa using h
    obtain ⟨ih, hc⟩ := subChain_val hl
    have hlen : (carryChain subStep (xs.zip ys)).2.length = xs.length := by
      simp [carryChain_length, hl]
    obtain ⟨hs, hc'⟩ := subStep_spec (x, y) hc
    refine ⟨?_, by simpa [carryChain_cons] using hc'⟩
    simp only [List.zip_cons_cons, carryChain_cons, listVal, hlen, ← hl, List.length_cons, Nat.mul_add, pow_add,
      Nat.mul_one]
    have := congrArg (· * 2 ^ (32 * xs.length)) hs
    simp only at this
    nlinarith

theorem mulChain_val (m : Digit) : ∀ xs : List Digit,
    listVal (carryChain (mulStep m) xs).2 + (carryChain (mulStep m) xs).1 * 2 ^ (32 * xs.length)
      = listVal xs * m.toNat ∧ (carryChain (mulStep m) xs).1 < 2 ^ 32
  | [] => by simp [listVal]
  | x :: xs => by
    obtain ⟨ih, hc⟩ := mulChain_val m xs
    obtain ⟨hs, hc'⟩ := mulStep_spec m x hc
    refine ⟨?_, hc'⟩
    simp only [carryChain_cons, listVal, carryChain_length, List.length_cons, Nat.mul_add, pow_add, Nat.mul_one]
    have := congrArg (· * 2 ^ (32 * xs.length)) hs
    nlinarith

/-- A chain position by position: there are carries `c`, 0 into the last position, such that each position's
digit and carry out are its step's. -/
theorem carryChain_positions {α : Type} (f : α → Nat → Nat × Digit) : ∀ xs : List α, ∃ c : Nat → Nat,
    c xs.length = 0 ∧
    (∀ i (h : i < xs.length), (carryChain f xs).2[i]? = some (f xs[i] (c (i + 1))).2 ∧
      c i = (f xs[i] (c (i + 1))).1) ∧
    (carryChain f xs).1 = c 0
  | [] => ⟨fun _ => 0, rfl, by simp, rfl⟩
  | x :: xs => by
    obtain ⟨c, h0, hi, hc⟩ := carryChain_positions f xs
    refine ⟨fun i => match i with | 0 => (carryChain f (x :: xs)).1 | i + 1 => c i, by simpa using h0, ?_, rfl⟩
    intro i h
    cases i with
    | zero => simp [carryChain_cons, hc]
    | succ i => simpa [carryChain_cons] using hi i (by simpa using h)

/-! ### The digits of a product and of a shifted value -/

/-- The digits of `MulByDigit` (R113, R114 (d)). -/
theorem get_mulByDigit (a : Narrow) (m : Digit) (i : Fin 128) :
    (mulByDigit a m).get i =
      if i.val < 63 then 0
      else if i.val = 63 then BitVec.ofNat 32 (carryChain (mulStep m) a.list).1
      else ((carryChain (mulStep m) a.list).2[i.val - 64]?).getD 0 := by
  simp only [mulByDigit, Slots.get]
  split
  · rename_i h
    rw [List.getElem_append_left (by rw [List.length_replicate]; exact h), List.getElem_replicate]
  · rename_i h
    rw [List.getElem_append_right (by rw [List.length_replicate]; omega)]
    simp only [List.length_replicate]
    split
    · rename_i h'
      simp [h']
    · rename_i h'
      have hi : i.val - 63 = i.val - 64 + 1 := by omega
      have hl : i.val - 64 < (carryChain (mulStep m) a.list).2.length := by
        rw [carryChain_length, a.size]; omega
      simp only [hi, List.getElem_cons_succ, List.getElem?_eq_getElem hl, Option.getD_some]

/-- The digits of a shifted value (R120). -/
theorem get_shiftSlots {n : Nat} (v : Digits n) (p : Nat) (i : Fin n) :
    (shiftSlots v p).get i = if h : i.val + p < n then v.get ⟨i.val + p, h⟩ else 0 := by
  simp only [shiftSlots, Slots.get]
  split
  · rename_i h
    rw [List.getElem_append_left (by rw [List.length_drop, v.size]; omega), List.getElem_drop]
    congr 1
    omega
  · rename_i h
    rw [List.getElem_append_right (by rw [List.length_drop, v.size]; omega), List.getElem_replicate]

/-- The zero detector tests the magnitude (R85, R91). -/
theorem isZero_iff {n : Nat} (v : Digits n) : isZero v = true ↔ val v = 0 := by
  constructor
  · intro h
    have : v = zero n := Slots.ext_list (List.eq_replicate_iff.2 ⟨v.size, fun d hd => by
      simpa using List.all_eq_true.1 h d hd⟩)
    rw [this, val_zero]
  · intro h
    have : v = zero n := val_inj (by rw [h, val_zero])
    subst this
    simp [isZero, zero, Slots.fill]

end Sys2Proof.Machine
end

