-- ==== Sys2Proof/Laws/PerInstr.lean ====
section
/-! SUPPORT. Facts made per instruction: each command's fields pass R62's and R67's checks, and its word is
the one R61's fields make. -/

namespace Sys2Proof.Laws

/-- The word of R61's fields. -/
def wordOf (f : CmdFields) : Word := f.op ++ f.rd ++ f.ra ++ f.rb ++ f.z ++ f.imm

namespace FieldsLegal

/-- The command's fields are well formed (R62, R67), and R71's formula for its word is R61's placing of
those fields. -/
def Statement (i : Instr) : Prop := i.wellFormed = true ∧ encode i = wordOf i.fields

theorem add (rd ra rb : NReg) : Statement (.add rd ra rb) := by
  unfold Statement; revert rd ra rb; decide +kernel

theorem addw (rd ra rb : WReg) : Statement (.addw rd ra rb) := by
  unfold Statement; revert rd ra rb; decide +kernel

theorem sub (rd ra rb : NReg) : Statement (.sub rd ra rb) := by
  unfold Statement; revert rd ra rb; decide +kernel

theorem cmp (ra rb : NReg) : Statement (.cmp ra rb) := by
  unfold Statement; revert ra rb; decide +kernel

theorem muld (rd : WReg) (ra rb : NReg) (k : Fin 64) : Statement (.muld rd ra rb k) := by
  unfold Statement; revert rd ra rb k; decide +kernel

theorem shld (rd ra : WReg) (p : Fin 128) : Statement (.shld rd ra p) := by
  unfold Statement; revert rd ra p; decide +kernel

theorem mul (rd : WReg) (ra rb : NReg) : Statement (.mul rd ra rb) := by
  unfold Statement; revert rd ra rb; decide +kernel

end FieldsLegal

end Sys2Proof.Laws
end

