-- ==== Sys2Proof/Laws/Encoding.lean ====
section
/-! SUPPORT. A command word and its fields determine each other, and a row of R63 selects a word field by
field. -/

namespace Sys2Proof.Laws

theorem wordOf_fieldsOf (c : Word) : wordOf (fieldsOf c) = c := by
  apply BitVec.eq_of_getLsbD_eq
  intro i hi
  simp only [wordOf, fieldsOf, BitVec.getLsbD_append, BitVec.getLsbD_extractLsb']
  have : i < 32 := hi
  interval_cases i <;> simp

theorem fieldsOf_inj {c d : Word} (h : fieldsOf c = fieldsOf d) : c = d := by
  rw [← wordOf_fieldsOf c, h, wordOf_fieldsOf]

theorem extractLsb'_and (s l : Nat) (c m : Word) :
    (c &&& m).extractLsb' s l = c.extractLsb' s l &&& m.extractLsb' s l := by
  apply BitVec.eq_of_getLsbD_eq
  intro i hi
  simp [hi]

/-- `c AND mask = pattern`, field by field (R63). -/
theorem and_eq_iff (c m p : Word) : c &&& m = p ↔
    (fieldsOf c).op &&& (fieldsOf m).op = (fieldsOf p).op ∧ (fieldsOf c).rd &&& (fieldsOf m).rd = (fieldsOf p).rd ∧
    (fieldsOf c).ra &&& (fieldsOf m).ra = (fieldsOf p).ra ∧ (fieldsOf c).rb &&& (fieldsOf m).rb = (fieldsOf p).rb ∧
    (fieldsOf c).z &&& (fieldsOf m).z = (fieldsOf p).z ∧ (fieldsOf c).imm &&& (fieldsOf m).imm = (fieldsOf p).imm := by
  constructor
  · rintro rfl
    simp only [fieldsOf, extractLsb'_and, and_self]
  · rintro ⟨h1, h2, h3, h4, h5, h6⟩
    apply fieldsOf_inj
    simp only [fieldsOf] at h1 h2 h3 h4 h5 h6
    simp only [fieldsOf, extractLsb'_and, h1, h2, h3, h4, h5, h6]

/-- A row the decoder finds is a row of R63 that selects the word. -/
theorem rowOf_some {c : Word} {r : Row} (h : rowOf c = some r) : r ∈ opcodeMap ∧ c &&& r.mask = r.pattern :=
  ⟨List.mem_of_find?_eq_some h, by simpa [Row.selects] using List.find?_some h⟩

/-- A selected word's opcode field is the row's: the masks keep the whole of it, so no two rows overlap. -/
theorem op_of_selected {c : Word} {r : Row} (hr : r ∈ opcodeMap) (h : c &&& r.mask = r.pattern) :
    (fieldsOf c).op = (fieldsOf r.pattern).op := by
  have hm : ∀ r ∈ opcodeMap, (fieldsOf r.mask).op = 0xFF := by decide
  have h1 := ((and_eq_iff _ _ _).1 h).1
  rw [hm r hr] at h1
  have : ∀ x : BitVec 8, x &&& 0xFF = x := by decide
  rw [← h1, this]

theorem decode_of_rowOf {c : Word} {r : Row} (h : rowOf c = some r) :
    decode c = .ok (assemble r.op (fieldsOf c)) := by
  simp only [decode, h]

end Sys2Proof.Laws
end

