-- ==== Sys2Proof/Laws/State.lean ====
section
/-! SUPPORT. One lemma per field per update of the state, each true by rfl, so that no later proof unfolds a
record update. -/

namespace Sys2Proof.Machine

variable (s : State)

/-! ### respond -/

@[simp] theorem respond_n (r : Response) : (respond r s).n = s.n := rfl
@[simp] theorem respond_w (r : Response) : (respond r s).w = s.w := rfl
@[simp] theorem respond_cb (r : Response) : (respond r s).cb = s.cb := rfl
@[simp] theorem respond_cmp (r : Response) : (respond r s).cmp = s.cmp := rfl
@[simp] theorem respond_nWritten (r : Response) : (respond r s).nWritten = s.nWritten := rfl
@[simp] theorem respond_wWritten (r : Response) : (respond r s).wWritten = s.wWritten := rfl
@[simp] theorem respond_draws (r : Response) : (respond r s).draws = s.draws := rfl
@[simp] theorem respond_pending (r : Response) : (respond r s).pending = s.pending := rfl
@[simp] theorem respond_responses (r : Response) : (respond r s).responses = s.responses ++ [r] := rfl

/-! ### respondErr -/

@[simp] theorem respondErr_n (c : ErrCause) : (respondErr c s).n = s.n := rfl
@[simp] theorem respondErr_w (c : ErrCause) : (respondErr c s).w = s.w := rfl
@[simp] theorem respondErr_cb (c : ErrCause) : (respondErr c s).cb = s.cb := rfl
@[simp] theorem respondErr_cmp (c : ErrCause) : (respondErr c s).cmp = s.cmp := rfl
@[simp] theorem respondErr_nWritten (c : ErrCause) : (respondErr c s).nWritten = s.nWritten := rfl
@[simp] theorem respondErr_wWritten (c : ErrCause) : (respondErr c s).wWritten = s.wWritten := rfl
@[simp] theorem respondErr_draws (c : ErrCause) : (respondErr c s).draws = s.draws := rfl
@[simp] theorem respondErr_pending (c : ErrCause) : (respondErr c s).pending = s.pending := rfl
@[simp] theorem respondErr_responses (c : ErrCause) : (respondErr c s).responses = s.responses ++ [.err c] := rfl

/-! ### writeN -/

@[simp] theorem writeN_n (r : NReg) (v : Narrow) : (writeN r v s).n = s.n.set r v := rfl
@[simp] theorem writeN_w (r : NReg) (v : Narrow) : (writeN r v s).w = s.w := rfl
@[simp] theorem writeN_cb (r : NReg) (v : Narrow) : (writeN r v s).cb = s.cb := rfl
@[simp] theorem writeN_cmp (r : NReg) (v : Narrow) : (writeN r v s).cmp = s.cmp := rfl
@[simp] theorem writeN_nWritten (r : NReg) (v : Narrow) : (writeN r v s).nWritten = s.nWritten.set r (Slots.fill 64 true) := rfl
@[simp] theorem writeN_wWritten (r : NReg) (v : Narrow) : (writeN r v s).wWritten = s.wWritten := rfl
@[simp] theorem writeN_draws (r : NReg) (v : Narrow) : (writeN r v s).draws = s.draws := rfl
@[simp] theorem writeN_pending (r : NReg) (v : Narrow) : (writeN r v s).pending = s.pending := rfl
@[simp] theorem writeN_responses (r : NReg) (v : Narrow) : (writeN r v s).responses = s.responses := rfl

/-! ### writeW -/

@[simp] theorem writeW_n (r : WReg) (v : Wide) : (writeW r v s).n = s.n := rfl
@[simp] theorem writeW_w (r : WReg) (v : Wide) : (writeW r v s).w = s.w.set r v := rfl
@[simp] theorem writeW_cb (r : WReg) (v : Wide) : (writeW r v s).cb = s.cb := rfl
@[simp] theorem writeW_cmp (r : WReg) (v : Wide) : (writeW r v s).cmp = s.cmp := rfl
@[simp] theorem writeW_nWritten (r : WReg) (v : Wide) : (writeW r v s).nWritten = s.nWritten := rfl
@[simp] theorem writeW_wWritten (r : WReg) (v : Wide) : (writeW r v s).wWritten = s.wWritten.set r (Slots.fill 128 true) := rfl
@[simp] theorem writeW_draws (r : WReg) (v : Wide) : (writeW r v s).draws = s.draws := rfl
@[simp] theorem writeW_pending (r : WReg) (v : Wide) : (writeW r v s).pending = s.pending := rfl
@[simp] theorem writeW_responses (r : WReg) (v : Wide) : (writeW r v s).responses = s.responses := rfl

/-! ### writeNDigit -/

@[simp] theorem writeNDigit_n (r : NReg) (k : Fin 64) (d : Digit) : (writeNDigit r k d s).n = s.n.set r ((s.n.get r).set k d) := rfl
@[simp] theorem writeNDigit_w (r : NReg) (k : Fin 64) (d : Digit) : (writeNDigit r k d s).w = s.w := rfl
@[simp] theorem writeNDigit_cb (r : NReg) (k : Fin 64) (d : Digit) : (writeNDigit r k d s).cb = s.cb := rfl
@[simp] theorem writeNDigit_cmp (r : NReg) (k : Fin 64) (d : Digit) : (writeNDigit r k d s).cmp = s.cmp := rfl
@[simp] theorem writeNDigit_nWritten (r : NReg) (k : Fin 64) (d : Digit) : (writeNDigit r k d s).nWritten = s.nWritten.set r ((s.nWritten.get r).set k true) := rfl
@[simp] theorem writeNDigit_wWritten (r : NReg) (k : Fin 64) (d : Digit) : (writeNDigit r k d s).wWritten = s.wWritten := rfl
@[simp] theorem writeNDigit_draws (r : NReg) (k : Fin 64) (d : Digit) : (writeNDigit r k d s).draws = s.draws := rfl
@[simp] theorem writeNDigit_pending (r : NReg) (k : Fin 64) (d : Digit) : (writeNDigit r k d s).pending = s.pending := rfl
@[simp] theorem writeNDigit_responses (r : NReg) (k : Fin 64) (d : Digit) : (writeNDigit r k d s).responses = s.responses := rfl

/-! ### writeWDigit -/

@[simp] theorem writeWDigit_n (r : WReg) (k : Fin 128) (d : Digit) : (writeWDigit r k d s).n = s.n := rfl
@[simp] theorem writeWDigit_w (r : WReg) (k : Fin 128) (d : Digit) : (writeWDigit r k d s).w = s.w.set r ((s.w.get r).set k d) := rfl
@[simp] theorem writeWDigit_cb (r : WReg) (k : Fin 128) (d : Digit) : (writeWDigit r k d s).cb = s.cb := rfl
@[simp] theorem writeWDigit_cmp (r : WReg) (k : Fin 128) (d : Digit) : (writeWDigit r k d s).cmp = s.cmp := rfl
@[simp] theorem writeWDigit_nWritten (r : WReg) (k : Fin 128) (d : Digit) : (writeWDigit r k d s).nWritten = s.nWritten := rfl
@[simp] theorem writeWDigit_wWritten (r : WReg) (k : Fin 128) (d : Digit) : (writeWDigit r k d s).wWritten = s.wWritten.set r ((s.wWritten.get r).set k true) := rfl
@[simp] theorem writeWDigit_draws (r : WReg) (k : Fin 128) (d : Digit) : (writeWDigit r k d s).draws = s.draws := rfl
@[simp] theorem writeWDigit_pending (r : WReg) (k : Fin 128) (d : Digit) : (writeWDigit r k d s).pending = s.pending := rfl
@[simp] theorem writeWDigit_responses (r : WReg) (k : Fin 128) (d : Digit) : (writeWDigit r k d s).responses = s.responses := rfl

/-! ### nextDraw -/

@[simp] theorem nextDraw_n (b : Bool) : (nextDraw b s).n = s.n := rfl
@[simp] theorem nextDraw_w (b : Bool) : (nextDraw b s).w = s.w := rfl
@[simp] theorem nextDraw_cb (b : Bool) : (nextDraw b s).cb = s.cb := rfl
@[simp] theorem nextDraw_cmp (b : Bool) : (nextDraw b s).cmp = s.cmp := rfl
@[simp] theorem nextDraw_nWritten (b : Bool) : (nextDraw b s).nWritten = s.nWritten := rfl
@[simp] theorem nextDraw_wWritten (b : Bool) : (nextDraw b s).wWritten = s.wWritten := rfl
@[simp] theorem nextDraw_draws (b : Bool) : (nextDraw b s).draws = s.draws + if b then 0 else 1 := rfl
@[simp] theorem nextDraw_pending (b : Bool) : (nextDraw b s).pending = s.pending := rfl
@[simp] theorem nextDraw_responses (b : Bool) : (nextDraw b s).responses = s.responses := rfl

/-! ### setCB -/

@[simp] theorem setCB_n (c : BitVec 1) : (setCB c s).n = s.n := rfl
@[simp] theorem setCB_w (c : BitVec 1) : (setCB c s).w = s.w := rfl
@[simp] theorem setCB_cb (c : BitVec 1) : (setCB c s).cb = c := rfl
@[simp] theorem setCB_cmp (c : BitVec 1) : (setCB c s).cmp = s.cmp := rfl
@[simp] theorem setCB_nWritten (c : BitVec 1) : (setCB c s).nWritten = s.nWritten := rfl
@[simp] theorem setCB_wWritten (c : BitVec 1) : (setCB c s).wWritten = s.wWritten := rfl
@[simp] theorem setCB_draws (c : BitVec 1) : (setCB c s).draws = s.draws := rfl
@[simp] theorem setCB_pending (c : BitVec 1) : (setCB c s).pending = s.pending := rfl
@[simp] theorem setCB_responses (c : BitVec 1) : (setCB c s).responses = s.responses := rfl

/-! ### setCMP -/

@[simp] theorem setCMP_n (o : Cmp) : (setCMP o s).n = s.n := rfl
@[simp] theorem setCMP_w (o : Cmp) : (setCMP o s).w = s.w := rfl
@[simp] theorem setCMP_cb (o : Cmp) : (setCMP o s).cb = s.cb := rfl
@[simp] theorem setCMP_cmp (o : Cmp) : (setCMP o s).cmp = o.enc := rfl
@[simp] theorem setCMP_nWritten (o : Cmp) : (setCMP o s).nWritten = s.nWritten := rfl
@[simp] theorem setCMP_wWritten (o : Cmp) : (setCMP o s).wWritten = s.wWritten := rfl
@[simp] theorem setCMP_draws (o : Cmp) : (setCMP o s).draws = s.draws := rfl
@[simp] theorem setCMP_pending (o : Cmp) : (setCMP o s).pending = s.pending := rfl
@[simp] theorem setCMP_responses (o : Cmp) : (setCMP o s).responses = s.responses := rfl

/-! ### applyReset -/

@[simp] theorem applyReset_n : (applyReset s).n = State.reset.n := rfl
@[simp] theorem applyReset_w : (applyReset s).w = State.reset.w := rfl
@[simp] theorem applyReset_cb : (applyReset s).cb = 0 := rfl
@[simp] theorem applyReset_cmp : (applyReset s).cmp = 0 := rfl
@[simp] theorem applyReset_nWritten : (applyReset s).nWritten = State.reset.nWritten := rfl
@[simp] theorem applyReset_wWritten : (applyReset s).wWritten = State.reset.wWritten := rfl
@[simp] theorem applyReset_draws : (applyReset s).draws = s.draws := rfl
@[simp] theorem applyReset_pending : (applyReset s).pending = s.pending := rfl
@[simp] theorem applyReset_responses : (applyReset s).responses = s.responses := rfl

@[simp] theorem nextDraw_true : nextDraw true s = s := rfl

end Sys2Proof.Machine
end

