-- ==== Sys2Proof/Laws/Ops.lean ====
section
/-! SUPPORT. What each shared operation does, said once: reads of registers, the address map, the operands. -/

namespace Sys2Proof.Machine

/-! ### Marks -/

theorem allWritten_iff {n : Nat} (m : Slots Bool n) : allWritten m = true ↔ ∀ k, m.get k = true := by
  simp only [allWritten, List.all_eq_true, id, Slots.get]
  constructor
  · intro h k
    exact h _ (List.getElem_mem _)
  · intro h b hb
    obtain ⟨i, hi, rfl⟩ := List.getElem_of_mem hb
    exact h ⟨i, by rw [← m.size]; exact hi⟩

@[simp] theorem allWritten_fill (n : Nat) : allWritten (Slots.fill n true) = true := by
  simp [allWritten_iff]

/-! ### Reads -/

theorem getElem_seenDigits (draw : Nat) :
    ∀ (ms : List Bool) (ds : List Digit) (i j : Nat) (hm : j < ms.length) (hd : j < ds.length)
      (hs : j < (seenDigits draw i ms ds).length),
      (seenDigits draw i ms ds)[j] = if ms[j] then ds[j] else Config.freeDigit draw (i + j)
  | m :: ms, d :: ds, i, 0, _, _, _ => by simp [seenDigits]
  | m :: ms, d :: ds, i, j + 1, hm, hd, hs => by
    simp only [seenDigits, List.getElem_cons_succ]
    rw [getElem_seenDigits draw ms ds (i + 1) j (by simpa using hm) (by simpa using hd)]
    rw [show i + 1 + j = i + (j + 1) by omega]

/-- A read of a register sees each written digit, and a free value in place of each other. -/
theorem get_seen {n : Nat} (draw : Nat) (m : Slots Bool n) (v : Digits n) (k : Fin n) :
    (seen draw m v).get k = if m.get k then v.get k else Config.freeDigit draw k := by
  have h := getElem_seenDigits draw m.list v.list 0 k.val (by rw [m.size]; exact k.isLt)
    (by rw [v.size]; exact k.isLt)
    (by rw [seenDigits_length _ _ _ _ (m.size.trans v.size.symm), v.size]; exact k.isLt)
  rw [Nat.zero_add] at h
  exact h

theorem readsAs_seen {n : Nat} (draw : Nat) (m : Slots Bool n) (v : Digits n) :
    ReadsAs m v (seen draw m v) := by
  intro k hk
  simp [get_seen, hk]

theorem seen_of_allWritten {n : Nat} {m : Slots Bool n} (h : allWritten m = true) (draw : Nat) (v : Digits n) :
    seen draw m v = v :=
  Slots.ext_get fun k => by simp [get_seen, (allWritten_iff m).1 h k]

theorem readsAs_of_allWritten {n : Nat} {m : Slots Bool n} {v a : Digits n} (h : allWritten m = true)
    (ha : ReadsAs m v a) : a = v :=
  Slots.ext_get fun k => ha k ((allWritten_iff m).1 h k)

variable (s : State)

@[simp] theorem operandN_snd (r : NReg) : (operandN r s).2 = nextDraw (allWritten (s.nWritten.get r)) s := rfl
@[simp] theorem operandW_snd (r : WReg) : (operandW r s).2 = nextDraw (allWritten (s.wWritten.get r)) s := rfl
@[simp] theorem operandDigit_snd (r : NReg) (k : Fin 64) :
    (operandDigit r k s).2 = nextDraw ((s.nWritten.get r).get k) s := rfl

theorem readsAs_operandN (r : NReg) : ReadsAs (s.nWritten.get r) (s.n.get r) (operandN r s).1 :=
  readsAs_seen _ _ _

theorem readsAs_operandW (r : WReg) : ReadsAs (s.wWritten.get r) (s.w.get r) (operandW r s).1 :=
  readsAs_seen _ _ _

/-- A register with a value reads as that value and the state stays as it was. -/
theorem operandN_of_written {r : NReg} (h : allWritten (s.nWritten.get r) = true) :
    operandN r s = (s.n.get r, s) := by
  simp [operandN, h, seen_of_allWritten h]

theorem operandW_of_written {r : WReg} (h : allWritten (s.wWritten.get r) = true) :
    operandW r s = (s.w.get r, s) := by
  simp [operandW, h, seen_of_allWritten h]

theorem readNDigit_of_written {r : NReg} {k : Fin 64} (h : (s.nWritten.get r).get k = true) :
    readNDigit r k s = ((s.n.get r).get k, s) := by
  simp [readNDigit, h]

theorem readWDigit_of_written {r : WReg} {k : Fin 128} (h : (s.wWritten.get r).get k = true) :
    readWDigit r k s = ((s.w.get r).get k, s) := by
  simp [readWDigit, h]

theorem operandDigit_of_written {r : NReg} {k : Fin 64} (h : (s.nWritten.get r).get k = true) :
    operandDigit r k s = ((s.n.get r).get k, s) :=
  readNDigit_of_written s h

/-! ### The address map -/

theorem region_addrN (r : NReg) (k : Fin 64) : region (addrN r k) = .narrow r k := by
  revert r k; decide +kernel

theorem region_addrW (r : WReg) (k : Fin 128) : region (addrW r k) = .wide r k := by
  revert r k; decide +kernel

@[simp] theorem region_addrCmd : region addrCmd = .cmd := rfl
@[simp] theorem region_addrStatus : region addrStatus = .status := rfl

/-- The word address of a mapped word. -/
def regionAddr : Region → Option Addr
  | .narrow r k => some (addrN r k)
  | .wide r k => some (addrW r k)
  | .cmd => some addrCmd
  | .status => some addrStatus
  | .unmapped => none

theorem regionAddr_region (a : Addr) : ∀ b, regionAddr (region a) = some b → a = b := by
  suffices ∀ i j : Fin 64, (regionAddr (region (.ofNat 12 (64 * i.val + j.val)))).all
      (fun b => b = .ofNat 12 (64 * i.val + j.val)) = true by
    intro b hb
    have h := this ⟨a.toNat / 64, by omega⟩ ⟨a.toNat % 64, by omega⟩
    have ha : BitVec.ofNat 12 (64 * (a.toNat / 64) + a.toNat % 64) = a := by
      rw [Nat.div_add_mod, BitVec.ofNat_toNat, BitVec.setWidth_eq]
    simp only [ha, hb, Option.all_some, decide_eq_true_eq] at h
    exact h.symm
  decide +kernel

/-- A word address names a digit only as that digit's own address. -/
theorem region_eq_narrow {a : Addr} {r : NReg} {k : Fin 64} : region a = .narrow r k ↔ a = addrN r k :=
  ⟨fun h => regionAddr_region a _ (by rw [h]; rfl), fun h => h ▸ region_addrN r k⟩

theorem region_eq_wide {a : Addr} {r : WReg} {k : Fin 128} : region a = .wide r k ↔ a = addrW r k :=
  ⟨fun h => regionAddr_region a _ (by rw [h]; rfl), fun h => h ▸ region_addrW r k⟩

theorem region_eq_cmd {a : Addr} : region a = .cmd ↔ a = addrCmd :=
  ⟨fun h => regionAddr_region a _ (by rw [h]; rfl), fun h => h ▸ region_addrCmd⟩

theorem region_eq_status {a : Addr} : region a = .status ↔ a = addrStatus :=
  ⟨fun h => regionAddr_region a _ (by rw [h]; rfl), fun h => h ▸ region_addrStatus⟩

end Sys2Proof.Machine
end

