-- ==== Sys2Proof/Laws/Exec.lean ====
section
/-! SUPPORT. Each command's meaning as one equation, and what `execute`, a host access and a step do. -/

namespace Sys2Proof.Machine

variable (s : State)

theorem exec_add (rd ra rb : NReg) : exec (.add rd ra rb) s =
    .next (setCB (addDigits (operandN ra s).1 (operandN rb (operandN ra s).2).1).1
      (writeN rd (addDigits (operandN ra s).1 (operandN rb (operandN ra s).2).1).2
        (operandN rb (operandN ra s).2).2)) := rfl

theorem exec_addw (rd ra rb : WReg) : exec (.addw rd ra rb) s =
    .next (setCB (addDigits (operandW ra s).1 (operandW rb (operandW ra s).2).1).1
      (writeW rd (addDigits (operandW ra s).1 (operandW rb (operandW ra s).2).1).2
        (operandW rb (operandW ra s).2).2)) := rfl

theorem exec_sub (rd ra rb : NReg) : exec (.sub rd ra rb) s =
    .next (setCB (subDigits (operandN ra s).1 (operandN rb (operandN ra s).2).1).1
      (writeN rd (subDigits (operandN ra s).1 (operandN rb (operandN ra s).2).1).2
        (operandN rb (operandN ra s).2).2)) := rfl

theorem exec_cmp (ra rb : NReg) : exec (.cmp ra rb) s =
    .next (setCMP (compareDigits (operandN ra s).1 (operandN rb (operandN ra s).2).1)
      (operandN rb (operandN ra s).2).2) := rfl

theorem exec_muld (rd : WReg) (ra rb : NReg) (k : Fin 64) : exec (.muld rd ra rb k) s =
    .next (writeW rd (mulByDigit (operandN ra s).1 (operandDigit rb k (operandN ra s).2).1)
      (operandDigit rb k (operandN ra s).2).2) := rfl

theorem exec_shld (rd ra : WReg) (p : Fin 128) : exec (.shld rd ra p) s =
    .next (writeW rd (shiftSlots (operandW ra s).1 p.val) (operandW ra s).2) := rfl

theorem exec_mul (rd : WReg) (ra rb : NReg) : exec (.mul rd ra rb) s =
    .next (writeW rd (multiply (operandN ra s).1 (operandN rb (operandN ra s).2).1)
      (operandN rb (operandN ra s).2).2) := rfl

/-! ### Commands whose sources have values (R162) -/

theorem exec_add_of_written {ra rb : NReg} (rd : NReg) (ha : allWritten (s.nWritten.get ra) = true)
    (hb : allWritten (s.nWritten.get rb) = true) : exec (.add rd ra rb) s =
    .next (setCB (addDigits (s.n.get ra) (s.n.get rb)).1
      (writeN rd (addDigits (s.n.get ra) (s.n.get rb)).2 s)) := by
  simp only [exec_add, operandN_of_written s ha, operandN_of_written s hb]

theorem exec_addw_of_written {ra rb : WReg} (rd : WReg) (ha : allWritten (s.wWritten.get ra) = true)
    (hb : allWritten (s.wWritten.get rb) = true) : exec (.addw rd ra rb) s =
    .next (setCB (addDigits (s.w.get ra) (s.w.get rb)).1
      (writeW rd (addDigits (s.w.get ra) (s.w.get rb)).2 s)) := by
  simp only [exec_addw, operandW_of_written s ha, operandW_of_written s hb]

theorem exec_sub_of_written {ra rb : NReg} (rd : NReg) (ha : allWritten (s.nWritten.get ra) = true)
    (hb : allWritten (s.nWritten.get rb) = true) : exec (.sub rd ra rb) s =
    .next (setCB (subDigits (s.n.get ra) (s.n.get rb)).1
      (writeN rd (subDigits (s.n.get ra) (s.n.get rb)).2 s)) := by
  simp only [exec_sub, operandN_of_written s ha, operandN_of_written s hb]

theorem exec_cmp_of_written {ra rb : NReg} (ha : allWritten (s.nWritten.get ra) = true)
    (hb : allWritten (s.nWritten.get rb) = true) : exec (.cmp ra rb) s =
    .next (setCMP (compareDigits (s.n.get ra) (s.n.get rb)) s) := by
  simp only [exec_cmp, operandN_of_written s ha, operandN_of_written s hb]

theorem exec_muld_of_written {ra rb : NReg} {k : Fin 64} (rd : WReg)
    (ha : allWritten (s.nWritten.get ra) = true) (hb : (s.nWritten.get rb).get k = true) :
    exec (.muld rd ra rb k) s =
    .next (writeW rd (mulByDigit (s.n.get ra) ((s.n.get rb).get k)) s) := by
  simp only [exec_muld, operandN_of_written s ha, operandDigit_of_written s hb]

theorem exec_shld_of_written {ra : WReg} (rd : WReg) (p : Fin 128)
    (ha : allWritten (s.wWritten.get ra) = true) : exec (.shld rd ra p) s =
    .next (writeW rd (shiftSlots (s.w.get ra) p.val) s) := by
  simp only [exec_shld, operandW_of_written s ha]

theorem exec_mul_of_written {ra rb : NReg} (rd : WReg) (ha : allWritten (s.nWritten.get ra) = true)
    (hb : allWritten (s.nWritten.get rb) = true) : exec (.mul rd ra rb) s =
    .next (writeW rd (multiply (s.n.get ra) (s.n.get rb)) s) := by
  simp only [exec_mul, operandN_of_written s ha, operandN_of_written s hb]

/-! ### Execute, host accesses and steps -/

theorem execute_of_decode {c : Word} {i : Instr} (hasSubw : Bool) (h : decode c = .ok i) :
    execute hasSubw c s = respondOk (exec i s) := by
  simp only [execute, h]

theorem execute_illegal {c : Word} (h : decode c = .error .illegalCommand) :
    execute false c s = .next (respondErr .illegalCommand s) := by
  simp only [execute, h]

/-- A word is legal, or rejected by its one name. -/
theorem decode_cases (c : Word) : (∃ i, decode c = .ok i) ∨ decode c = .error .illegalCommand := by
  unfold decode
  split
  · exact .inl ⟨_, rfl⟩
  · exact .inr rfl

theorem hostWrite_addrN (r : NReg) (k : Fin 64) (v : Digit) :
    hostWrite (addrN r k) v s = .next (respond .ok (writeNDigit r k v s)) := by
  simp only [hostWrite, region_addrN]

theorem hostWrite_addrW (r : WReg) (k : Fin 128) (v : Digit) :
    hostWrite (addrW r k) v s = .next (respond .ok (writeWDigit r k v s)) := by
  simp only [hostWrite, region_addrW]

theorem hostWrite_addrCmd (c : Word) : hostWrite addrCmd c s = execute false c s := rfl

theorem hostRead_addrN {r : NReg} {k : Fin 64} (h : (s.nWritten.get r).get k = true) :
    hostRead (addrN r k) s = respond (.okData ((s.n.get r).get k)) s := by
  simp only [hostRead, region_addrN, readNDigit_of_written s h]

theorem hostRead_addrW {r : WReg} {k : Fin 128} (h : (s.wWritten.get r).get k = true) :
    hostRead (addrW r k) s = respond (.okData ((s.w.get r).get k)) s := by
  simp only [hostRead, region_addrW, readWDigit_of_written s h]

theorem step_nil (h : s.pending = []) : step s = .next s := by
  simp only [step, h]

theorem step_cons {e : Event} {rest : List Event} (h : s.pending = e :: rest) :
    step s = handle e { s with pending := rest } := by
  simp only [step, h]

/-- Everything a step can do: idle, one host read, one host write, or reset. -/
theorem step_cases {t : State} (h : step s = .next t) :
    (s.pending = [] ∧ t = s) ∨
    (∃ a rest, s.pending = .read a :: rest ∧ t = hostRead a { s with pending := rest }) ∨
    (∃ a v rest, s.pending = .write a v :: rest ∧ hostWrite a v { s with pending := rest } = .next t) ∨
    (∃ rest, s.pending = .reset :: rest ∧ t = applyReset { s with pending := rest }) := by
  rcases hp : s.pending with _ | ⟨_ | _ | _, rest⟩
  · exact .inl ⟨rfl, by simpa [step_nil s hp] using h.symm⟩
  · rw [step_cons s hp] at h
    simp only [handle, Host.Outcome.next.injEq] at h
    exact .inr (.inl ⟨_, _, rfl, h.symm⟩)
  · rw [step_cons s hp] at h
    exact .inr (.inr (.inl ⟨_, _, _, rfl, h⟩))
  · rw [step_cons s hp] at h
    simp only [handle, Host.Outcome.next.injEq] at h
    exact .inr (.inr (.inr ⟨_, rfl, h.symm⟩))

/-- Everything a host write can do: replace one digit, run a command, or err. -/
theorem hostWrite_cases {a : Addr} {v : Digit} {t : State} (h : hostWrite a v s = .next t) :
    (∃ r k, a = addrN r k ∧ t = respond .ok (writeNDigit r k v s)) ∨
    (∃ r k, a = addrW r k ∧ t = respond .ok (writeWDigit r k v s)) ∨
    (∃ i u, a = addrCmd ∧ decode v = .ok i ∧ exec i s = .next u ∧ t = respond .ok u) ∨
    (a = addrCmd ∧ decode v = .error .illegalCommand ∧ t = respondErr .illegalCommand s) ∨
    (a = addrStatus ∧ t = respondErr .accessKind s) ∨
    (region a = .unmapped ∧ t = respondErr .unmapped s) := by
  rcases hr : region a with ⟨r, k⟩ | ⟨r, k⟩ | _ | _ | _
  · obtain rfl := region_eq_narrow.1 hr
    rw [hostWrite_addrN] at h
    exact .inl ⟨r, k, rfl, (Host.Outcome.next.inj h).symm⟩
  · obtain rfl := region_eq_wide.1 hr
    rw [hostWrite_addrW] at h
    exact .inr (.inl ⟨r, k, rfl, (Host.Outcome.next.inj h).symm⟩)
  · obtain rfl := region_eq_cmd.1 hr
    rw [hostWrite_addrCmd] at h
    rcases decode_cases v with ⟨i, hi⟩ | hi
    · rw [execute_of_decode s false hi] at h
      rcases hu : exec i s with u | f | r
      · rw [hu] at h
        exact .inr (.inr (.inl ⟨i, u, rfl, hi, hu, (Host.Outcome.next.inj h).symm⟩))
      · rw [hu] at h
        simp [respondOk] at h
      · rw [hu] at h
        simp [respondOk] at h
    · rw [execute_illegal s hi] at h
      exact .inr (.inr (.inr (.inl ⟨rfl, hi, (Host.Outcome.next.inj h).symm⟩)))
  · obtain rfl := region_eq_status.1 hr
    simp only [hostWrite, region_addrStatus, Host.Outcome.next.injEq] at h
    exact .inr (.inr (.inr (.inr (.inl ⟨rfl, h.symm⟩))))
  · simp only [hostWrite, hr, Host.Outcome.next.injEq] at h
    exact .inr (.inr (.inr (.inr (.inr ⟨rfl, h.symm⟩))))

end Sys2Proof.Machine
end

