-- ==== Sys2Proof/Laws/Run.lean ====
section
/-! SUPPORT. Runs of several steps: a run of `j + k` steps is a run of `j` and then one of `k`; and the step of each kind of host
write. Then what the directives that carry a value stand for. -/

namespace Sys2Proof.Machine

@[simp] theorem run_zero (s : State) : run 0 s = .next s := rfl

theorem run_succ (k : Nat) {s t : State} (h : step s = .next t) : run (k + 1) s = run k t := by
  simp only [run, h]

theorem run_add (j k : Nat) : ∀ {s t : State}, run j s = .next t → run (j + k) s = run k t := by
  induction j with
  | zero =>
    intro s t h
    rw [Nat.zero_add, Host.Outcome.next.inj h]
  | succ j ih =>
    intro s t h
    rw [Nat.add_right_comm]
    simp only [run] at h ⊢
    split at h
    · exact ih h
    · cases h
    · cases h

/-- The step of a host write of a narrow digit. -/
theorem step_writeN {s : State} {r : NReg} {k : Fin 64} {v : Digit} {rest : List Event}
    (h : s.pending = .write (addrN r k) v :: rest) :
    step s = .next (respond .ok (writeNDigit r k v { s with pending := rest })) := by
  rw [step_cons s h]
  exact hostWrite_addrN _ _ _ _

theorem step_writeW {s : State} {r : WReg} {k : Fin 128} {v : Digit} {rest : List Event}
    (h : s.pending = .write (addrW r k) v :: rest) :
    step s = .next (respond .ok (writeWDigit r k v { s with pending := rest })) := by
  rw [step_cons s h]
  exact hostWrite_addrW _ _ _ _

/-- The step of a host read of a digit that has been written. -/
theorem step_readN {s : State} {r : NReg} {k : Fin 64} {rest : List Event}
    (h : s.pending = .read (addrN r k) :: rest) (hw : (s.nWritten.get r).get k = true) :
    step s = .next (respond (.okData ((s.n.get r).get k)) { s with pending := rest }) := by
  rw [step_cons s h]
  exact congrArg _ (hostRead_addrN { s with pending := rest } hw)

theorem step_readW {s : State} {r : WReg} {k : Fin 128} {rest : List Event}
    (h : s.pending = .read (addrW r k) :: rest) (hw : (s.wWritten.get r).get k = true) :
    step s = .next (respond (.okData ((s.w.get r).get k)) { s with pending := rest }) := by
  rw [step_cons s h]
  exact congrArg _ (hostRead_addrW { s with pending := rest } hw)

/-- The step of a `CMD` write of a legal word. -/
theorem step_cmd {s u : State} {c : Word} {i : Instr} {rest : List Event}
    (h : s.pending = .write addrCmd c :: rest) (hd : decode c = .ok i)
    (hx : exec i { s with pending := rest } = .next u) : step s = .next (respond .ok u) := by
  rw [step_cons s h]
  show hostWrite addrCmd c _ = _
  rw [hostWrite_addrCmd, execute_of_decode _ _ hd, hx]
  rfl

@[simp] theorem dataRead_map_okData (ds : List Digit) : dataRead (ds.map .okData) = some ds := by
  induction ds with
  | nil => rfl
  | cons d ds ih => simp [dataRead, ih]

/-- The digits of a register, answered in index order, read as its magnitude. -/
@[simp] theorem valueRead_digits {n : Nat} (v : Digits n) : valueRead (v.list.map .okData) = some (val v) := by
  simp [valueRead, val]

theorem setNHex_of_decode (r : NReg) {s : List Char} {v : Narrow} (h : hexDecode s = .ok v) :
    setNHex r s = .ok (setN r (val v)) := by
  simp only [setNHex, h]

theorem setNHex_of_error (r : NReg) {s : List Char} {e : CodecError} (h : hexDecode s = .error e) :
    setNHex r s = .error e := by
  simp only [setNHex, h]

end Sys2Proof.Machine
end

