-- ==== Sys2Proof/Tests/Slice0.lean ====
section
/-! SUPPORT. The model's own tests. Expected results are the spec's: its worked examples and the vectors of
spec/95_test_vectors.md, whose ids stand in the names. Then a witness for the hypotheses of each statement. -/

namespace Sys2Proof.Tests

-- one after another: each closing by the kernel's evaluation would else hold a thread while it waits
set_option Elab.async false

open Sys2Proof.Machine

/-! ### Helpers -/

/-- The outcome is a next state that passes the check. -/
def after (o : Host.Outcome State Fault Refusal) (check : State → Bool) : Bool :=
  match o with
  | .next t => check t
  | _ => false

/-- After reset, `Na` and `Nb` hold values. -/
def narrows (a : NReg) (x : Nat) (b : NReg) (y : Nat) : State :=
  writeN b (digitsOf 64 y) (writeN a (digitsOf 64 x) State.reset)

/-- After reset, `Wa` and `Wb` hold values. -/
def wides (a : WReg) (x : Nat) (b : WReg) (y : Nat) : State :=
  writeW b (digitsOf 128 y) (writeW a (digitsOf 128 x) State.reset)

/-- The host will next do this. -/
def facing (e : Event) (s : State) : State := { s with pending := [e] }

/-- Place value of digit `i` of a wide value. -/
def place (i : Nat) : Nat := 2 ^ (32 * (127 - i))

/-! ### Decoding: a word of each row, bit by bit from R61 and R63 -/

theorem test_decode_add : decode 0b00000001000000010010000000000000 = .ok (.add 0 1 2) := by decide
theorem test_decode_addw : decode 0b00000010000000000001000000000000 = .ok (.addw 0 0 1) := by decide
theorem test_decode_sub : decode 0b00000011001100100001000000000000 = .ok (.sub 3 2 1) := by decide
theorem test_decode_cmp : decode 0b00000100000000110000000000000000 = .ok (.cmp 3 0) := by decide
theorem test_decode_muld : decode 0b00000101000000010010000000111111 = .ok (.muld 0 1 2 63) := by decide
theorem test_decode_shld : decode 0b00000110000100010000000001111111 = .ok (.shld 1 1 127) := by decide
theorem test_decode_mul : decode 0b00000111001000000001000000000000 = .ok (.mul 2 0 1) := by decide

/-- E1 to E7, E9, E11 to E13: illegal words. -/
theorem test_decode_illegal :
    ([0x00000000, 0xFFFFFFFF, 0x01401000, 0x01201001, 0x01201100, 0x04101000, 0x05101040, 0x06110080,
      0x06111000, 0x08000000, 0x09000000] : List Word).all
      (fun c => decode c = .error .illegalCommand) = true := by decide

/-- E8, E10: the nearest legal words. -/
theorem test_decode_nearest_legal :
    decode 0x0510103F = .ok (.muld 1 0 1 63) ∧ decode 0x0611007F = .ok (.shld 1 1 127) := by decide

theorem test_decodeTableWord : decodeTableWord 32 0x01012000 = some (.add 0 1 2) ∧
    decodeTableWord 32 0x08000000 = none := by decide

/-! ### WellFormed smoke: for each check a term it refuses -/

theorem test_wf_op : CmdFields.opKnown ⟨0x08, 0, 0, 0, 0, 0⟩ = false := by decide
theorem test_wf_rd : CmdFields.rdOk ⟨0x01, 4, 0, 0, 0, 0⟩ = false := by decide
theorem test_wf_rd_cmp : CmdFields.rdOk ⟨0x04, 1, 0, 0, 0, 0⟩ = false := by decide
theorem test_wf_ra : CmdFields.raOk ⟨0x01, 0, 4, 0, 0, 0⟩ = false := by decide
theorem test_wf_rb : CmdFields.rbOk ⟨0x01, 0, 0, 4, 0, 0⟩ = false := by decide
theorem test_wf_rb_shld : CmdFields.rbOk ⟨0x06, 0, 0, 1, 0, 0⟩ = false := by decide
theorem test_wf_z : CmdFields.zOk ⟨0x01, 0, 0, 0, 1, 0⟩ = false := by decide
theorem test_wf_imm : CmdFields.immOk ⟨0x01, 0, 0, 0, 0, 1⟩ = false := by decide
theorem test_wf_k : CmdFields.immOk ⟨0x05, 0, 0, 0, 0, 64⟩ = false := by decide
theorem test_wf_p : CmdFields.immOk ⟨0x06, 0, 0, 0, 0, 128⟩ = false := by decide

/-! ### The commands, at most two vectors each -/

/-- A4: the carry ripples through all 64 digits and out; source and destination coincide. -/
theorem test_add_A4 : after (exec (.add 1 1 2) (narrows 1 (2 ^ 2048 - 1) 2 1))
    (fun t => t.n.get 1 = zero 64 && t.cb = 1 && t.n.get 2 = digitsOf 64 1) = true := by decide +kernel

/-- A8: a carry in the middle of the array. -/
theorem test_add_A8 : after (exec (.add 0 1 2) (narrows 1 (0xffffffff * 2 ^ (32 * 53)) 2 (2 ^ (32 * 53))))
    (fun t => t.n.get 0 = digitsOf 64 (2 ^ (32 * 54)) && t.cb = 0) = true := by decide +kernel

/-- W2: a carry from the low-order half into the high-order half. -/
theorem test_addw_W2 : after (exec (.addw 0 1 2) (wides 1 (2 ^ 2048 - 1) 2 1))
    (fun t => t.w.get 0 = digitsOf 128 (place 63) && t.cb = 0) = true := by decide +kernel

/-- W3: the largest sum. -/
theorem test_addw_W3 : after (exec (.addw 0 1 1) (wides 1 (2 ^ 4096 - 1) 2 0))
    (fun t => t.w.get 0 = digitsOf 128 (2 ^ 4096 - 2) && t.cb = 1) = true := by decide +kernel

/-- B8: digit 63 needs no borrow, digit 62 does. -/
theorem test_sub_B8 : after (exec (.sub 0 1 2) (narrows 1 1 2 (2 ^ 32)))
    (fun t => (t.n.get 0).get 63 = 1 && (t.n.get 0).get 62 = 0xffffffff && (t.n.get 0).get 0 = 0xffffffff &&
      t.cb = 1) = true := by decide +kernel

/-- B4: a borrow across one boundary, absorbed. -/
theorem test_sub_B4 : after (exec (.sub 0 1 2) (narrows 1 (2 ^ 32) 2 1))
    (fun t => t.n.get 0 = digitsOf 64 0xffffffff && t.cb = 0) = true := by decide +kernel

/-- C5: a value with its top bit set is large, not negative. -/
theorem test_cmp_C5 : after (exec (.cmp 1 2) (narrows 1 (2 ^ 2047) 2 (2 ^ 2047 - 1)))
    (fun t => t.cmp = 0b01 && t.cb = 0) = true := by decide +kernel

/-- C6: decided at the least significant digit. -/
theorem test_cmp_C6 : after (exec (.cmp 1 2) (narrows 1 (7 * 2 ^ (32 * 58)) 2 (7 * 2 ^ (32 * 58) + 1)))
    (fun t => t.cmp = 0b11 && t.cb = 0) = true := by decide +kernel

/-- M5: a carry between digits; the multiplier is digit 63 of the second register. -/
theorem test_muld_M5 : after (exec (.muld 0 1 2 63) (narrows 1 0x200000003 2 0x80000000))
    (fun t => t.w.get 0 = digitsOf 128 (place 125 + place 126 + 0x80000000)) = true := by decide +kernel

/-- M6: the final carry leaves the embedded range; the multiplier is digit 0. -/
theorem test_muld_M6 : after (exec (.muld 3 1 1 0) (narrows 1 (0xffffffff * 2 ^ (32 * 63)) 2 0))
    (fun t => t.w.get 3 = digitsOf 128 (0xfffffffe * place 63 + place 64)) = true := by decide +kernel

/-- H2: one slot. -/
theorem test_shld_H2 : after (exec (.shld 1 1 1) (wides 1 (3 * 2 ^ 32 + 6) 2 0))
    (fun t => t.w.get 1 = digitsOf 128 (3 * place 125 + 6 * place 126)) = true := by decide +kernel

/-- H6: a non-zero digit is shifted out and lost without a flag. -/
theorem test_shld_H6 : after (exec (.shld 0 1 1) (wides 1 (0xdeadbeef * place 0) 2 0))
    (fun t => t.w.get 0 = zero 128 && t.cb = 0 && t.cmp = 0) = true := by decide +kernel

/-- X1 (SROM's S6): it separates the two readings of conflict C1. -/
theorem test_mul_X1 : after (exec (.mul 0 1 2) (narrows 1 2 2 3))
    (fun t => t.w.get 0 = digitsOf 128 6) = true := by decide +kernel

/-- X7: the very top digit of the result is reached. -/
theorem test_mul_X7 : after (exec (.mul 0 1 1) (narrows 1 (0xffffffff * 2 ^ (32 * 63)) 2 0))
    (fun t => t.w.get 0 = digitsOf 128 (0xfffffffe * place 0 + place 1)) = true := by decide +kernel

/-! ### The host port -/

/-- E14, E15, E16: the error responses; the block's state is as it was. -/
theorem test_port_errors :
    ([(.read 0x400, .accessKind), (.write 0x401 0, .accessKind), (.read 0x100, .unmapped), (.read 0x1FF, .unmapped),
      (.read 0x402, .unmapped), (.write 0xFFF 0, .unmapped), (.write 0x400 0, .illegalCommand)]
      : List (Event × ErrCause)).all
      (fun p => after (step (facing p.1 State.reset))
        (fun t => t = { State.reset with responses := [.err p.2] })) = true := by decide +kernel

/-- E17, E18, E19: the last mapped narrow digit, the last mapped wide digit, the address decode of the wide file. -/
theorem test_port_map :
    region 0x0FF = .narrow 3 63 ∧ region 0x3FF = .wide 3 127 ∧ region 0x280 = .wide 1 0 := by decide

/-- A host write of a digit, then what a read of it answers (R48). -/
theorem test_port_write_read : after (step (facing (.write 0x07F 0xdeadbeef) State.reset))
    (fun t => answer 0x07F t = some (.okData 0xdeadbeef) && t.responses = [.ok]) = true := by decide +kernel

/-- P1's last read: `CB` from `SUB` and `CMP` `LESS` read as 7. -/
theorem test_status_seven :
    statusWord (setCMP .less (setCB 1 State.reset)) = 0x00000007 := by decide

/-- Between accesses the block holds its registers (R153). -/
theorem test_step_idle : step State.reset = .next State.reset := rfl

/-- The first command after reset runs and completes (R34: also on digits nothing has written). -/
theorem test_first_command_runs : after (step (State.reset.withFetchWord 32 0x01012000))
    (fun t => t.pending = [] && t.responses = [.ok] && allWritten (t.nWritten.get 0) && t.draws = 2) = true := by
  decide +kernel

/-! ### Host software -/

/-- S2, S3 in R83's spelling; R81's example; R82. -/
theorem test_codec :
    hexEncode (digitsOf 64 2) = ['0', '0', '0', '0', '0', '0', '0', '2'] ∧
    hexDecode ['1', '0', '0', '0', '0', '0', '0', '0', '0'] = .ok (digitsOf 64 0x100000000) ∧
    hexDecode (List.replicate 513 'g') = .error .outOfRange ∧
    hexDecode ['0', 'x', '1'] = .error .parseError := by decide +kernel

/-- R71: either case, a comment, `0x`; a register of the wrong file is rejected. -/
theorem test_assembler :
    assembleLine ['M', 'u', 'l', 'd', ' ', 'w', '0', ',', 'N', '1', ',', ' ', 'N', '2', '[', '0', 'x', '3', 'F', ']', ' ', ';', 'c']
      = .command (.muld 0 1 2 63) ∧
    assembleLine ['A', 'D', 'D', ' ', 'N', '0', ',', 'W', '1', ',', 'N', '2'] = .rejected := by decide +kernel

/-- R72, R81's example string: `SETN` of a hex string; R43: the first digit read is the most significant; a response
without data reads as no value. -/
theorem test_directives :
    setNHex 2 ['1', '0', '0', '0', '0', '0', '0', '0', '0'] = .ok (setN 2 0x100000000) ∧
    setNHex 2 ['g'] = .error .parseError ∧
    valueRead [.okData 3, .okData 4] = some 0x300000004 ∧
    valueRead [.okData 3, .err .unmapped] = none := by decide +kernel

/-! ### Witnesses: for each statement with hypotheses, a state and operands that meet all of them -/

theorem witness_StepRunsDecodedCommand :
    decode 0x01012000 = .ok (.add 0 1 2) ∧
    (State.reset.withFetchWord 32 0x01012000).pending = .write addrCmd 0x01012000 :: [] := by decide +kernel

theorem witness_DecodedWordIsItsEncoding : decode 0x0622003F = .ok (.shld 2 2 63) := by decide

theorem witness_LegalWordsAreExactlyTheTable : ¬∃ i, decode 0x08000000 = .ok i := by
  rintro ⟨i, h⟩
  simp [decode, rowOf, opcodeMap, Row.selects] at h

theorem witness_AddCommutesAndUndoesSub :
    (subDigits (digitsOf 64 (2 ^ 32)) (digitsOf 64 1)).1 = 0 := by decide +kernel

theorem witness_ShiftMovesDigits : (0 ≤ 128 ∧ (128 : Nat) ≤ 128) ∧
    (0 + 127 ≤ 127 ∧ 128 - 127 ≤ (1 : Nat)) := by decide

theorem witness_ShiftRefusesOtherCounts : ((-1 : Int) < 0) ∧ ((128 : Int) < 129) ∧ ((0 : Int) ≤ 128) ∧
    decode 0x0611007F = .ok (.shld 1 1 127) := by decide

theorem witness_MultiplyDistributes :
    (addDigits (digitsOf 64 0xffffffff) (digitsOf 64 1)).1 = 0 := by decide +kernel

theorem witness_SourcesWritten_narrow :
    SourcesWritten (.add 0 1 2) (narrows 1 5 2 7) ∧ SourcesWritten (.sub 0 1 2) (narrows 1 5 2 7) ∧
    SourcesWritten (.cmp 1 2) (narrows 1 5 2 7) ∧ SourcesWritten (.mul 0 1 2) (narrows 1 5 2 7) ∧
    SourcesWritten (.muld 0 1 2 63) (narrows 1 5 2 7) := by
  simp only [SourcesWritten]; decide +kernel

theorem witness_SourcesWritten_wide :
    SourcesWritten (.addw 0 1 2) (wides 1 5 2 7) ∧ SourcesWritten (.shld 0 1 127) (wides 1 5 2 7) := by
  simp only [SourcesWritten]; decide +kernel

theorem witness_MuldCommand_digit : ((narrows 1 5 2 7).nWritten.get 2).get 0 = true := by decide +kernel

theorem witness_ResultDependsOnSourcesOnly :
    SourcesAgree (.mul 0 1 2) (narrows 1 5 2 7) (setCB 1 (writeW 3 (zero 128) (narrows 1 5 2 7))) := by
  simp only [SourcesAgree, SourcesWritten]; decide +kernel

theorem witness_OnlyAddAndSubWriteCB :
    after (step ((narrows 1 (2 ^ 2048 - 1) 2 1).withFetchWord 32 0x01012000)) (fun t => t.cb ≠ 0) = true := by
  decide +kernel

theorem witness_OnlyCmpWritesCMP :
    after (step ((narrows 1 1 2 2).withFetchWord 32 0x04012000)) (fun t => t.cmp ≠ 0) = true := by decide +kernel

theorem witness_WritersOfTheNarrowFile :
    after (step ((narrows 1 1 2 2).withFetchWord 32 0x01012000))
      (fun t => t.n ≠ (narrows 1 1 2 2).n) = true := by decide +kernel

theorem witness_WritersOfTheWideFile :
    after (step (facing (.write 0x3FF 5) State.reset)) (fun t => t.w ≠ State.reset.w) = true := by decide +kernel

theorem witness_WrittenDigitsStayWritten :
    (∃ t, step (narrows 1 1 2 2) = .next t) ∧ (¬∃ rest, (narrows 1 1 2 2).pending = .reset :: rest) ∧
    ((narrows 1 1 2 2).nWritten.get 1).get 0 = true ∧
    ((wides 1 1 2 2).wWritten.get 2).get 127 = true := by
  refine ⟨⟨_, rfl⟩, ?_, by decide +kernel, by decide +kernel⟩
  rintro ⟨rest, h⟩
  cases h

/-- Two different states that agree on every written digit. -/
theorem witness_UnwrittenDigitsAreNeverObserved :
    SameWritten State.reset { State.reset with n := Slots.fill 4 (digitsOf 64 5) } ∧
    State.reset.n ≠ Slots.fill 4 (digitsOf 64 5) ∧ ∃ t, step State.reset = .next t := by
  refine ⟨⟨rfl, rfl, fun r k h => ?_, fun _ _ _ => rfl, rfl, rfl, rfl, rfl, rfl⟩, by decide +kernel, ⟨_, rfl⟩⟩
  simp [State.reset] at h

theorem witness_StepKeepsCmpLegal : State.reset.CmpLegal ∧ ∃ t, step State.reset = .next t :=
  ⟨by decide, _, rfl⟩

theorem witness_ResetEventRestoresResetState :
    (facing .reset (narrows 1 1 2 2)).pending = .reset :: [] := rfl

theorem witness_AddressMap_boundaries :
    (addrN 0 0).toNat = 0 ∧ (addrN 3 63).toNat = 0x0FF ∧ (addrW 0 0).toNat = 0x200 ∧
    (addrW 3 127).toNat = 0x3FF ∧ Unmapped 0x100 ∧ Unmapped 0x1FF ∧ Unmapped 0x402 ∧ Unmapped 0xFFF := by decide

/-- Each address range of R54 at its boundaries; no address falls under two of them. -/
theorem witness_HostAccessProcedure :
    ((0x000 : Addr) ≤ 0x0FF ∧ (0x0FF : Addr) ≤ 0x0FF) ∧
    ((0x200 : Addr) ≤ 0x200 ∧ (0x3FF : Addr) ≤ 0x3FF) ∧ ¬((0x200 : Addr) ≤ 0x0FF) ∧ ¬Unmapped 0x0FF ∧
    ¬Unmapped 0x200 ∧ ¬Unmapped 0x3FF ∧ ¬Unmapped 0x400 ∧ ¬Unmapped 0x401 ∧
    (((narrows 3 1 2 2).nWritten.get 3).get 63 = true ∧ ((wides 1 1 3 2).wWritten.get 3).get 127 = true) := by
  decide +kernel

theorem witness_EveryDigitReadAnswersData :
    (0x0FF : Addr) ≤ 0x0FF ∧ (0x200 ≤ (0x200 : Addr) ∧ (0x200 : Addr) ≤ 0x3FF) ∧
    (State.reset.nWritten.get 3).get 63 = false := by decide +kernel

theorem witness_HostWriteThenRead :
    (0x0FF : Addr) ≤ 0x0FF ∧ (0x200 ≤ (0x3FF : Addr) ∧ (0x3FF : Addr) ≤ 0x3FF) ∧ (0x0FE : Addr) ≠ 0x0FF := by decide

theorem witness_ErrorResponses :
    (facing (.read 0x100) State.reset).pending = .read 0x100 :: [] ∧
    after (step (facing (.read 0x100) State.reset)) (fun t => t.responses = [.err .unmapped]) = true ∧
    after (step (facing (.read 0x400) State.reset)) (fun t => t.responses = [.err .accessKind]) = true ∧
    after (step (facing (.write 0x400 0) State.reset)) (fun t => t.responses = [.err .illegalCommand]) = true := by
  decide +kernel

theorem witness_OneResponsePerAccess :
    (∃ t, step (facing (.read 0x401) State.reset) = .next t) ∧ (∃ t, step (facing .reset State.reset) = .next t) ∧
    State.reset.pending = [] := ⟨⟨_, rfl⟩, ⟨_, rfl⟩, rfl⟩

theorem witness_StrictStepFaultsOnErrors :
    (∃ t, step (facing (.read 0x400) State.reset) = .next t) ∧
    strictStep (facing (.read 0x400) State.reset) = .fault (.errResponse .accessKind) ∧
    after (strictStep (facing (.read 0x401) State.reset)) (fun t => t.responses = [.okData 0]) = true :=
  ⟨⟨_, rfl⟩, rfl, by decide +kernel⟩

theorem witness_SetnLoadsTheValue : (0xffffffff < 2 ^ 2048) ∧
    ({ State.reset with pending := setN 0 0xffffffff } : State).pending = setN 0 0xffffffff ++ [] := by
  exact ⟨by decide +kernel, (List.append_nil _).symm⟩

theorem witness_SetwLoadsTheValue : (5 < 2 ^ 4096) ∧
    ({ State.reset with pending := setW 3 5 } : State).pending = setW 3 5 ++ [] := by
  exact ⟨by decide +kernel, (List.append_nil _).symm⟩

theorem witness_GetReadsTheDigits :
    allWritten ((narrows 1 5 2 7).nWritten.get 1) = true ∧ allWritten ((wides 1 5 2 7).wWritten.get 2) = true ∧
    ({ narrows 1 5 2 7 with pending := getN 1 } : State).pending = getN 1 ++ [] ∧
    ({ wides 1 5 2 7 with pending := getW 2 } : State).pending = getW 2 ++ [] :=
  ⟨by decide +kernel, by decide +kernel, (List.append_nil _).symm, (List.append_nil _).symm⟩

theorem witness_SetnOfHexString :
    (['f', 'F'] : List Char).length ≤ 512 ∧ spells 0 ['f', 'F'] = some 255 ∧
    hexDecode (List.replicate 513 '0') = .error .outOfRange ∧
    ({ State.reset with pending := setN 1 255 } : State).pending = setN 1 255 ++ [] :=
  ⟨by decide, by decide, by decide +kernel, (List.append_nil _).symm⟩

/-- The first two clauses have the hypotheses of `witness_GetReadsTheDigits`. -/
theorem witness_GetReadsTheValue : (2 ^ 2048 - 1 < 2 ^ 2048 ∧ 2 ^ 4096 - 1 < 2 ^ 4096) ∧
    ({ State.reset with pending := setN 3 (2 ^ 2048 - 1) ++ getN 3 } : State).pending
      = setN 3 (2 ^ 2048 - 1) ++ (getN 3 ++ []) ∧
    ({ State.reset with pending := setW 3 (2 ^ 4096 - 1) ++ getW 3 } : State).pending
      = setW 3 (2 ^ 4096 - 1) ++ (getW 3 ++ []) :=
  ⟨by decide +kernel, by rw [List.append_nil], by rw [List.append_nil]⟩

theorem witness_MulEqualsHostDrivenProgram : (1 : WReg) ≠ 0 ∧
    SourcesWritten (.mul 0 1 2) { narrows 1 5 2 7 with pending := hostMultiply 0 1 1 2 } ∧
    ({ narrows 1 5 2 7 with pending := hostMultiply 0 1 1 2 } : State).pending = hostMultiply 0 1 1 2 ++ [] := by
  refine ⟨by decide, ?_, (List.append_nil _).symm⟩
  simp only [SourcesWritten]; decide +kernel

theorem witness_EncodeZeroTest : hexEncode (digitsOf 64 0x100000000) ≠ ['0'] := by decide +kernel

theorem witness_CodecRoundTrip : hexDecode ['0', '1'] = .ok (digitsOf 64 1) := by decide +kernel

theorem witness_EncodeEmitsWholeGroups : val (digitsOf 64 0x100000000) ≠ 0 := by decide +kernel

end Sys2Proof.Tests
end

section
/-! SUPPORT. The `STATUS` word read field by field, and what a host access to its address does (spec/10_state.md R28). -/

namespace Sys2Proof.Machine

section StatusWord

variable (s : State)

theorem toNat_statusWord : (statusWord s).toNat = s.cb.toNat + 2 * s.cmp.toNat := by
  have happend : (s.cmp ++ s.cb).toNat = 2 * s.cmp.toNat + s.cb.toNat := by
    rw [BitVec.toNat_append, ← Nat.shiftLeft_add_eq_or_of_lt s.cb.isLt, Nat.shiftLeft_eq]
    omega
  rw [statusWord, BitVec.toNat_setWidth_of_le (by decide), happend, Nat.add_comm]

theorem getLsbD_statusWord_zero : (statusWord s).getLsbD 0 = s.cb.getLsbD 0 := by
  simp only [statusWord, BitVec.getLsbD_setWidth, BitVec.getLsbD_append, Nat.zero_lt_succ, decide_true,
    Bool.true_and, if_true]

theorem extractLsb'_statusWord_cmp : (statusWord s).extractLsb' 1 2 = s.cmp := by
  apply BitVec.eq_of_toNat_eq
  rw [BitVec.extractLsb'_toNat, toNat_statusWord, Nat.shiftRight_eq_div_pow]
  omega

theorem extractLsb'_statusWord_high : (statusWord s).extractLsb' 3 29 = 0 := by
  apply BitVec.eq_of_toNat_eq
  rw [BitVec.extractLsb'_toNat, toNat_statusWord, Nat.shiftRight_eq_div_pow]
  have hsmall : (s.cb.toNat + 2 * s.cmp.toNat) / 2 ^ 3 = 0 := by omega
  rw [hsmall]
  rfl

/-- The two codes that a legal `CMP` leaves out are 4 and 5, those of `CMP = 0b10`. -/
theorem statusWord_mem_of_cmpLegal (h : s.CmpLegal) :
    statusWord s ∈ ([0, 1, 2, 3, 6, 7] : List Digit) := by
  have hcmp : s.cmp.toNat ≠ 2 := fun h2 => h (BitVec.eq_of_toNat_eq h2)
  have hvalue := toNat_statusWord s
  simp only [List.mem_cons, List.not_mem_nil, or_false, ← BitVec.toNat_inj, BitVec.reduceToNat]
  omega

theorem hostRead_addrStatus : hostRead addrStatus s = respond (.okData (statusWord s)) s := by
  simp only [hostRead, region_addrStatus]

theorem hostWrite_addrStatus (v : Digit) : hostWrite addrStatus v s = .next (respondErr .accessKind s) := by
  simp only [hostWrite, region_addrStatus]

end StatusWord

theorem statusWord_reset : statusWord State.reset = 0x00000000 := rfl

/-- Settles O38: each clause is a lemma about `statusWord` or about an access to `addrStatus`. -/
theorem statusRegister : Obligations.StatusRegister :=
  ⟨fun s => ⟨toNat_statusWord s, getLsbD_statusWord_zero s, extractLsb'_statusWord_cmp s,
    extractLsb'_statusWord_high s, statusWord_mem_of_cmpLegal s, hostRead_addrStatus s,
    hostWrite_addrStatus s⟩, statusWord_reset⟩

end Sys2Proof.Machine
end

section
/-! SUPPORT. R54's address ranges as regions of the address map, and what a host access to each of them does
(spec/20_memory.md R42, R54). -/

namespace Sys2Proof.Machine

variable {a : Addr}

/-- R54's slices name the digit: an address of the `N` range is the address of `N[a[7:6]][a[5:0]]`. -/
theorem eq_addrN_of_le (h : a ≤ 0x0FF) : a = addrN (a.extractLsb' 6 2).toFin (a.extractLsb' 0 6).toFin :=
  region_eq_narrow.1 (if_pos h)

/-- An address of the `W` range is the address of `W[a[8:7]][a[6:0]]`. -/
theorem eq_addrW_of_mem_range (h : 0x200 ≤ a ∧ a ≤ 0x3FF) :
    a = addrW (a.extractLsb' 7 2).toFin (a.extractLsb' 0 7).toFin := by
  have hN : ¬a ≤ 0x0FF := by bv_omega
  exact region_eq_wide.1 ((if_neg hN).trans (if_pos h))

theorem region_eq_unmapped : region a = .unmapped ↔ Unmapped a := by
  unfold region Unmapped
  split_ifs with hN hW hC hS
  · exact iff_of_false nofun (by bv_omega)
  · exact iff_of_false nofun (by bv_omega)
  · exact iff_of_false nofun (by bv_omega)
  · exact iff_of_false nofun (by bv_omega)
  · exact iff_of_true rfl (by bv_omega)

section PortAccess

variable (s : State)

theorem hostRead_addrCmd : hostRead addrCmd s = respondErr .accessKind s := by
  simp only [hostRead, region_addrCmd]

theorem hostRead_unmapped (h : Unmapped a) : hostRead a s = respondErr .unmapped s := by
  simp only [hostRead, region_eq_unmapped.2 h]

theorem hostWrite_unmapped (h : Unmapped a) (v : Digit) :
    hostWrite a v s = .next (respondErr .unmapped s) := by
  simp only [hostWrite, region_eq_unmapped.2 h]

end PortAccess

/-- Settles O40: an address of a digit range is the address its slices name, so each clause is the rule for an
access to that address. -/
theorem hostAccessProcedure : Obligations.HostAccessProcedure := by
  intro a v s
  refine ⟨fun hN => ?narrow, fun hW => ?wide, ?status, ?cmd, fun hU => ?unmapped⟩
  case narrow =>
    have ha := eq_addrN_of_le hN
    exact ⟨fun hw => (congrArg (hostRead · s) ha).trans (hostRead_addrN s hw),
      (congrArg (hostWrite · v s) ha).trans (hostWrite_addrN s _ _ v)⟩
  case wide =>
    have ha := eq_addrW_of_mem_range hW
    exact ⟨fun hw => (congrArg (hostRead · s) ha).trans (hostRead_addrW s hw),
      (congrArg (hostWrite · v s) ha).trans (hostWrite_addrW s _ _ v)⟩
  case status =>
    rintro rfl
    exact ⟨hostRead_addrStatus s, hostWrite_addrStatus s v⟩
  case cmd =>
    rintro rfl
    exact ⟨hostRead_addrCmd s, hostWrite_addrCmd s v⟩
  case unmapped =>
    exact ⟨hostRead_unmapped s hU, hostWrite_unmapped s hU v⟩

end Sys2Proof.Machine
end

section
/-! SUPPORT. The legal words are those a row of the opcode map selects, and those whose fields pass R67's checks
(spec/30_encoding.md R62, R63, R67). -/

namespace Sys2Proof.Laws

open Sys2Proof.Machine

/-! ### The mask of a format is its list of field checks -/

section FieldMasks

variable (x : BitVec 4) (y : BitVec 8)

theorem and_regMask_eq_zero_iff : x &&& 0xC = 0 ↔ x ≤ 3 := by revert x; decide

theorem and_digitIndexMask_eq_zero_iff : y &&& 0xC0 = 0 ↔ y ≤ 63 := by revert y; decide

theorem and_shiftCountMask_eq_zero_iff : y &&& 0x80 = 0 ↔ y ≤ 127 := by revert y; decide

theorem and_nibbleMask : x &&& 0xF = x := BitVec.and_allOnes

theorem and_byteMask : y &&& 0xFF = y := BitVec.and_allOnes

end FieldMasks

/-- The mask R63 gives every row of a format, cut into R61's fields. -/
def maskFields : Format → CmdFields
  | .r3  => ⟨0xFF, 0xC, 0xC, 0xC, 0xF, 0xFF⟩
  | .r2c => ⟨0xFF, 0xF, 0xC, 0xC, 0xF, 0xFF⟩
  | .r3k => ⟨0xFF, 0xC, 0xC, 0xC, 0xF, 0xC0⟩
  | .r2p => ⟨0xFF, 0xC, 0xC, 0xF, 0xF, 0x80⟩

theorem exists_format_of_mem_opcodeMap : ∀ r ∈ opcodeMap, ∃ fmt : Format,
    (fieldsOf r.pattern).format = some fmt ∧ fieldsOf r.mask = maskFields fmt := by
  simp only [opcodeMap, List.forall_mem_cons, List.not_mem_nil, false_imp_iff, implies_true, and_true]
  exact ⟨⟨.r3, by decide⟩, ⟨.r3, by decide⟩, ⟨.r3, by decide⟩, ⟨.r2c, by decide⟩, ⟨.r3k, by decide⟩,
    ⟨.r2p, by decide⟩, ⟨.r3, by decide⟩⟩

theorem fieldsOf_pattern : ∀ r ∈ opcodeMap,
    fieldsOf r.pattern = ⟨(fieldsOf r.pattern).op, 0, 0, 0, 0, 0⟩ := by decide

/-- What a format asks of a field is that its mask finds no bit there: a register field keeps its two upper
bits zero, `k` and `p` the bits above their range, and a field the format has no use for all of them. -/
theorem wellFormed_iff_maskFields {f : CmdFields} {fmt : Format} (h : f.format = some fmt) :
    f.wellFormed = true ↔ f.rd &&& (maskFields fmt).rd = 0 ∧ f.ra &&& (maskFields fmt).ra = 0 ∧
      f.rb &&& (maskFields fmt).rb = 0 ∧ f.z &&& (maskFields fmt).z = 0 ∧ f.imm &&& (maskFields fmt).imm = 0 := by
  simp only [CmdFields.wellFormed, CmdFields.opKnown, CmdFields.rdOk, CmdFields.raOk, CmdFields.rbOk,
    CmdFields.zOk, CmdFields.immOk, h, Option.isSome_some, Bool.true_and, Bool.and_eq_true, and_assoc]
  cases fmt <;>
    simp only [maskFields, and_regMask_eq_zero_iff, and_digitIndexMask_eq_zero_iff,
      and_shiftCountMask_eq_zero_iff, and_nibbleMask, and_byteMask, decide_eq_true_eq]

theorem format_congr {f g : CmdFields} (h : f.op = g.op) : f.format = g.format := by
  simp only [CmdFields.format, h]

/-! ### The legal words -/

/-- On words of a row's opcode, the row selects the well-formed ones. -/
theorem selected_iff_wellFormed {c : Word} {r : Row} (hr : r ∈ opcodeMap)
    (hop : (fieldsOf c).op = (fieldsOf r.pattern).op) :
    c &&& r.mask = r.pattern ↔ (fieldsOf c).wellFormed = true := by
  obtain ⟨fmt, hfmt, hmask⟩ := exists_format_of_mem_opcodeMap r hr
  have hopMask : (fieldsOf c).op &&& (maskFields fmt).op = (fieldsOf r.pattern).op := by
    rw [← hop]; cases fmt <;> exact and_byteMask _
  rw [wellFormed_iff_maskFields ((format_congr hop).trans hfmt), and_eq_iff, hmask,
    and_iff_right hopMask, fieldsOf_pattern r hr]

theorem opKnown_of_wellFormed {f : CmdFields} (h : f.wellFormed = true) : f.opKnown = true := by
  simp only [CmdFields.wellFormed, Bool.and_eq_true, and_assoc] at h
  exact h.1

/-- An opcode R67 knows is the opcode of a row of R63. -/
theorem exists_row_of_opKnown {f : CmdFields} (h : f.opKnown = true) :
    ∃ r ∈ opcodeMap, f.op = (fieldsOf r.pattern).op := by
  simp only [CmdFields.opKnown, CmdFields.format] at h
  generalize f.op = op at h ⊢
  revert op
  decide

/-- No two rows share an opcode, and a row's mask keeps the whole of the opcode field. -/
theorem selected_unique {c : Word} {r r' : Row} (hr : r ∈ opcodeMap) (hc : c &&& r.mask = r.pattern)
    (hr' : r' ∈ opcodeMap) (hc' : c &&& r'.mask = r'.pattern) : r' = r := by
  have hinj : ∀ r ∈ opcodeMap, ∀ r' ∈ opcodeMap,
      (fieldsOf r'.pattern).op = (fieldsOf r.pattern).op → r' = r := by decide
  exact hinj r hr r' hr' ((op_of_selected hr' hc').symm.trans (op_of_selected hr hc))

theorem decodes_iff_selected (c : Word) :
    (∃ i, decode c = .ok i) ↔ ∃ r, r ∈ opcodeMap ∧ c &&& r.mask = r.pattern := by
  cases h : rowOf c with
  | some r => exact iff_of_true ⟨_, decode_of_rowOf h⟩ ⟨r, rowOf_some h⟩
  | none =>
    have hdecode : decode c = .error .illegalCommand := by simp only [decode, h]
    refine iff_of_false (by simp [hdecode]) ?_
    rintro ⟨r, hr, hc⟩
    exact List.find?_eq_none.1 h r hr (decide_eq_true hc)

theorem decodes_iff_existsUnique_selected (c : Word) :
    (∃ i, decode c = .ok i) ↔ ∃! r : Row, r ∈ opcodeMap ∧ c &&& r.mask = r.pattern := by
  rw [decodes_iff_selected]
  refine ⟨?_, ExistsUnique.exists⟩
  rintro ⟨r, hr, hc⟩
  exact ⟨r, ⟨hr, hc⟩, fun r' ⟨hr', hc'⟩ => selected_unique hr hc hr' hc'⟩

theorem decodes_iff_wellFormed (c : Word) :
    (∃ i, decode c = .ok i) ↔ (fieldsOf c).wellFormed = true := by
  rw [decodes_iff_selected]
  constructor
  · rintro ⟨r, hr, hc⟩
    exact (selected_iff_wellFormed hr (op_of_selected hr hc)).1 hc
  · intro h
    obtain ⟨r, hr, hop⟩ := exists_row_of_opKnown (opKnown_of_wellFormed h)
    exact ⟨r, hr, (selected_iff_wellFormed hr hop).2 h⟩

/-- R143: the response carries the one code of every illegal word, and is the only change. -/
theorem hostWrite_addrCmd_illegal {c : Word} (h : ¬∃ i, decode c = .ok i) (s : State) :
    hostWrite addrCmd c s = .next (respondErr .illegalCommand s) := by
  rw [hostWrite_addrCmd, execute_illegal s ((decode_cases c).resolve_left h)]

/-- Settles O5: the three clauses are the three descriptions of a legal word, by its row, by its fields, and by
what the port answers to any other. -/
theorem legalWordsAreExactlyTheTable : Obligations.LegalWordsAreExactlyTheTable :=
  fun c s => ⟨decodes_iff_existsUnique_selected c, decodes_iff_wellFormed c,
    fun h => hostWrite_addrCmd_illegal h s⟩

end Sys2Proof.Laws
end

section
/-! SUPPORT. The magnitude after a write of one digit, and what a small magnitude says of the digits
(spec/00_scope.md R9). -/

namespace Sys2Proof

theorem listVal_set (ds : List Digit) (i : Nat) (hi : i < ds.length) (d : Digit) :
    listVal (ds.set i d) + ds[i].toNat * 2 ^ (32 * (ds.length - 1 - i)) =
      listVal ds + d.toNat * 2 ^ (32 * (ds.length - 1 - i)) := by
  induction ds generalizing i with
  | nil => cases hi
  | cons e es ih =>
    cases i with
    | zero =>
      simp only [List.set_cons_zero, List.getElem_cons_zero, listVal, List.length_cons, Nat.add_sub_cancel,
        Nat.sub_zero]
      omega
    | succ i =>
      have h := ih i (Nat.lt_of_succ_lt_succ hi)
      have hlen : (e :: es).length - 1 - (i + 1) = es.length - 1 - i := by rw [List.length_cons]; omega
      simp only [List.set_cons_succ, List.getElem_cons_succ, listVal, List.length_set, hlen]
      omega

theorem val_set {n : Nat} (v : Digits n) (i : Fin n) (d : Digit) :
    val (v.set i d) + (v.get i).toNat * 2 ^ (32 * (n - 1 - i)) = val v + d.toNat * 2 ^ (32 * (n - 1 - i)) := by
  obtain ⟨ds, rfl⟩ := v
  exact listVal_set ds i i.isLt d

/-- A digit at or above a place the magnitude does not reach is 0. -/
theorem get_eq_zero_of_val_lt {n : Nat} {v : Digits n} {i : Fin n} (h : val v < 2 ^ (32 * (n - 1 - i))) :
    v.get i = 0 := by
  by_contra h0
  have hpos : 0 < (v.get i).toNat := Nat.pos_of_ne_zero fun h => h0 (BitVec.eq_of_toNat_eq h)
  have hplace : (v.get i).toNat * 2 ^ (32 * (n - 1 - i)) ≤ val v := by
    rw [val_eq_sum]
    exact Finset.single_le_sum (f := fun i : Fin n => (v.get i).toNat * 2 ^ (32 * (n - 1 - i)))
      (fun _ _ => Nat.zero_le _) (Finset.mem_univ i)
  exact absurd h (Nat.not_lt.2 ((Nat.le_mul_of_pos_left _ hpos).trans hplace))

theorem val_digitsOf_of_lt {n x : Nat} (h : x < 2 ^ (32 * n)) : val (digitsOf n x) = x := by
  rw [val_digitsOf, Nat.mod_eq_of_lt h]

theorem val_digitsOf_one {n : Nat} (hn : 0 < n) : val (digitsOf n 1) = 1 :=
  val_digitsOf_of_lt (Nat.one_lt_two_pow (by omega))

theorem val_eq_zero_iff {n : Nat} (v : Digits n) : val v = 0 ↔ ∀ i, v.get i = 0 := by
  constructor
  · intro h i
    exact get_eq_zero_of_val_lt (h ▸ by positivity)
  · intro h
    rw [Slots.ext_get (w := zero n) fun i => (h i).trans (Slots.get_fill 0 i).symm, val_zero]

end Sys2Proof
end

section
/-! SUPPORT. The hex codec against the number a string spells (spec/40_hex_codec.md R80-R86): what `Encode` emits
spells `val(v)`, and `Decode` answers the value a string spells. -/

namespace Sys2Proof.Machine

/-! ### The number a string spells -/

section Spells

variable {xs : List Char} {x : Nat}

theorem spells_append (acc : Nat) (xs ys : List Char) :
    spells acc (xs ++ ys) = (spells acc xs).bind (spells · ys) := by
  induction xs generalizing acc with
  | nil => rfl
  | cons c cs ih =>
    simp only [List.cons_append, spells]
    cases hexValue c with
    | some x => exact ih _
    | none => rfl

/-- What stands before a string counts at the place above all its characters. -/
theorem spells_eq_map (acc : Nat) (xs : List Char) :
    spells acc xs = (spells 0 xs).map (acc * 16 ^ xs.length + ·) := by
  induction xs generalizing acc with
  | nil => simp [spells]
  | cons c cs ih =>
    simp only [spells]
    cases hexValue c with
    | none => rfl
    | some x =>
      dsimp only
      rw [ih, ih (16 * 0 + x), Option.map_map]
      congr 1
      funext y
      simp only [Function.comp_apply, List.length_cons, pow_succ]
      ring

theorem hexValue_lt {c : Char} (h : hexValue c = some x) : x < 16 := by
  simp only [hexValue, Char.le_def, UInt32.le_iff_toNat_le, Char.toNat_val, Char.reduceToNat] at h
  split_ifs at h with hdigit hlower hupper <;> cases h
  · omega
  · omega
  · omega

theorem spells_lt (h : spells 0 xs = some x) : x < 16 ^ xs.length := by
  induction xs generalizing x with
  | nil => cases h; exact Nat.one_pos
  | cons c cs ih =>
    simp only [spells] at h
    cases hc : hexValue c with
    | none => simp [hc] at h
    | some d =>
      simp only [hc] at h
      rw [spells_eq_map, Option.map_eq_some_iff] at h
      obtain ⟨y, hy, rfl⟩ := h
      have hlow := ih hy
      have hhigh : (d + 1) * 16 ^ cs.length ≤ 16 * 16 ^ cs.length := Nat.mul_le_mul_right _ (hexValue_lt hc)
      rw [List.length_cons, pow_succ]
      linarith

end Spells

/-! ### Encode -/

theorem hexValue_hexChar (upper : Bool) {x : Nat} (h : x < 16) : hexValue (hexChar upper x) = some x := by
  have hall : ∀ upper, ∀ x < 16, hexValue (hexChar upper x) = some x := by decide
  exact hall upper x h

@[simp] theorem length_hex8 (upper : Bool) (d : Digit) : (hex8 upper d).length = 8 := by simp [hex8]

theorem spells_hex8 (upper : Bool) (acc : Nat) (d : Digit) :
    spells acc (hex8 upper d) = some (acc * 2 ^ 32 + d.toNat) := by
  have hx : ∀ x, hexValue (hexChar upper (x % 16)) = some (x % 16) :=
    fun x => hexValue_hexChar upper (Nat.mod_lt x (by decide))
  have hd := d.isLt
  simp only [hex8, List.range_succ, List.range_zero, List.nil_append, List.cons_append, List.map_cons,
    List.map_nil, spells, hx, Nat.reduceSub, Nat.reducePow, Option.some.injEq]
  omega

theorem length_flatMap_hex8 (upper : Bool) (ds : List Digit) :
    (ds.flatMap (hex8 upper)).length = 8 * ds.length := by
  simp [List.length_flatMap, Nat.mul_comm]

theorem spells_flatMap_hex8 (upper : Bool) (acc : Nat) (ds : List Digit) :
    spells acc (ds.flatMap (hex8 upper)) = some (acc * 2 ^ (32 * ds.length) + listVal ds) := by
  induction ds generalizing acc with
  | nil => simp [spells, listVal]
  | cons d ds ih =>
    rw [List.flatMap_cons, spells_append, spells_hex8, Option.bind_some, ih]
    simp only [listVal, List.length_cons, Nat.mul_add, pow_add]
    congr 1
    ring

/-- The digits of a value from its first non-zero one, those `Encode` emits (R83). -/
def significantDigits {n : Nat} (v : Digits n) : List Digit := v.list.dropWhile (fun d => d == 0)

theorem listVal_dropWhile_zero (ds : List Digit) : listVal (ds.dropWhile (fun d => d == 0)) = listVal ds := by
  induction ds with
  | nil => rfl
  | cons d ds ih =>
    by_cases hd : d = 0
    · simpa [hd, listVal] using ih
    · rw [List.dropWhile_cons_of_neg (by simpa using hd)]

section Encode

variable {n : Nat} (v : Digits n)

theorem listVal_significantDigits : listVal (significantDigits v) = val v := listVal_dropWhile_zero v.list

theorem length_significantDigits_le : (significantDigits v).length ≤ n :=
  (List.length_dropWhile_le _ _).trans_eq v.size

theorem significantDigits_eq_nil_iff : significantDigits v = [] ↔ val v = 0 := by
  rw [← isZero_iff, isZero, List.all_eq_true]
  exact List.dropWhile_eq_nil_iff

variable {v}

theorem hexEncode_of_val_eq_zero (h : val v = 0) : hexEncode v = ['0'] :=
  congrArg (hexGroups _ _) ((significantDigits_eq_nil_iff v).2 h)

/-- With every group padded, the first group is one like the others (C2). -/
theorem hexEncode_of_val_ne_zero (h : val v ≠ 0) :
    hexEncode v = (significantDigits v).flatMap (hex8 Config.hexUpper) := by
  obtain ⟨d, ds, hds⟩ := List.exists_cons_of_ne_nil (mt (significantDigits_eq_nil_iff v).1 h)
  rw [hds]
  exact congrArg (hexGroups _ _) hds

theorem length_hexEncode_of_val_ne_zero (h : val v ≠ 0) :
    (hexEncode v).length = 8 * (significantDigits v).length := by
  rw [hexEncode_of_val_ne_zero h, length_flatMap_hex8]

theorem eight_le_length_hexEncode (h : val v ≠ 0) : 8 ≤ (hexEncode v).length := by
  have hpos := List.length_pos_iff.2 (mt (significantDigits_eq_nil_iff v).1 h)
  rw [length_hexEncode_of_val_ne_zero h]
  omega

variable (v)

theorem hexEncode_eq_zero_iff : hexEncode v = ['0'] ↔ val v = 0 := by
  refine ⟨fun h => ?_, hexEncode_of_val_eq_zero⟩
  by_contra hv
  have hlen := eight_le_length_hexEncode hv
  rw [h] at hlen
  exact absurd hlen (by decide)

theorem spells_hexEncode : spells 0 (hexEncode v) = some (val v) := by
  by_cases h : val v = 0
  · rw [hexEncode_of_val_eq_zero h, h]
    rfl
  · rw [hexEncode_of_val_ne_zero h, spells_flatMap_hex8, listVal_significantDigits, Nat.zero_mul, Nat.zero_add]

theorem length_hexEncode_le (hn : 0 < n) : (hexEncode v).length ≤ 8 * n := by
  by_cases h : val v = 0
  · rw [hexEncode_of_val_eq_zero h, List.length_singleton]
    omega
  · rw [length_hexEncode_of_val_ne_zero h]
    exact Nat.mul_le_mul_left 8 (length_significantDigits_le v)

end Encode

/-- Settles O53: an all-zero value encodes as `"0"`, any other as one group or more of 8 characters. -/
theorem encodeZeroTest : Obligations.EncodeZeroTest :=
  fun _ v => ⟨(hexEncode_eq_zero_iff v).trans (val_eq_zero_iff v), hexEncode_eq_zero_iff v,
    fun h => eight_le_length_hexEncode (mt (hexEncode_eq_zero_iff v).2 h)⟩

/-! ### Decode -/

section Decode

variable {chunk tail s : List Char} {v w : Narrow} {j : Nat}

theorem placeChunk_eq_ok_iff (i : Fin 64) :
    placeChunk chunk i v = .ok w ↔ ∃ x, spells 0 chunk = some x ∧ v.set i (BitVec.ofNat 32 x) = w := by
  cases h : spells 0 chunk <;> simp [placeChunk, h]

/-- A chunk parsed into the slot above a value of `j` digits adds its number at that place (R81). -/
theorem val_set_above (hj : j < 64) (hv : val v < 2 ^ (32 * j)) {x : Nat} (hx : x < 2 ^ 32) :
    val (v.set ⟨63 - j, by omega⟩ (BitVec.ofNat 32 x)) = x * 2 ^ (32 * j) + val v := by
  have hplace : 64 - 1 - (63 - j) = j := by omega
  have hset := val_set v ⟨63 - j, by omega⟩ (BitVec.ofNat 32 x)
  rw [get_eq_zero_of_val_lt (by simpa only [hplace] using hv)] at hset
  simp only [hplace, BitVec.toNat_ofNat, Nat.mod_eq_of_lt hx, BitVec.ofNat_eq_ofNat, Nat.zero_mod,
    Nat.zero_mul] at hset
  omega

theorem sixteen_pow_eight_mul (j : Nat) : 16 ^ (8 * j) = 2 ^ (32 * j) := by
  rw [show 16 = 2 ^ 4 from rfl, ← pow_mul]
  congr 1
  omega

/-- Placing a chunk above the value that the characters after it spell gives the value that all of them
spell. -/
theorem placeChunk_above_iff (hj : j < 64) (hchunk : chunk.length ≤ 8) (htail : tail.length = 8 * j)
    (hv : spells 0 tail = some (val v)) :
    placeChunk chunk ⟨63 - j, by omega⟩ v = .ok w ↔ spells 0 (chunk ++ tail) = some (val w) := by
  have hvlt : val v < 2 ^ (32 * j) := by
    rw [← sixteen_pow_eight_mul, ← htail]
    exact spells_lt hv
  rw [placeChunk_eq_ok_iff, spells_append, Option.bind_eq_some_iff]
  refine exists_congr fun x => and_congr_right fun hx => ?_
  have hxlt : x < 2 ^ 32 := (spells_lt hx).trans_le (Nat.pow_le_pow_right (by decide) hchunk)
  rw [spells_eq_map, hv, htail, sixteen_pow_eight_mul, Option.map_some, ← val_set_above hj hvlt hxlt,
    Option.some_inj]
  exact ⟨congrArg val, val_inj⟩

/-- A string no longer than the groups of `n` digits spells a number that `n` digits hold. -/
theorem exists_val_of_spells {n x : Nat} (hs : s.length ≤ 8 * n) (h : spells 0 s = some x) :
    ∃ v : Digits n, val v = x := by
  refine ⟨digitsOf n x, val_digitsOf_of_lt ?_⟩
  calc x < 16 ^ s.length := spells_lt h
    _ ≤ 16 ^ (8 * n) := Nat.pow_le_pow_right (by decide) hs
    _ = 2 ^ (32 * n) := sixteen_pow_eight_mul n

/-- The same with the value of the tail left open: a string spells a number only when its tail does. -/
theorem exists_placeChunk_iff (hj : j < 64) (hchunk : chunk.length ≤ 8) (htail : tail.length = 8 * j) :
    (∃ v, spells 0 tail = some (val v) ∧ placeChunk chunk ⟨63 - j, by omega⟩ v = .ok w) ↔
      spells 0 (chunk ++ tail) = some (val w) := by
  constructor
  · rintro ⟨v, hv, hw⟩
    exact (placeChunk_above_iff hj hchunk htail hv).1 hw
  · intro hw
    have happ := spells_append 0 chunk tail
    rw [hw, eq_comm, Option.bind_eq_some_iff] at happ
    obtain ⟨a, -, ha⟩ := happ
    rw [spells_eq_map, Option.map_eq_some_iff] at ha
    obtain ⟨y, hy, -⟩ := ha
    obtain ⟨v, rfl⟩ := exists_val_of_spells (n := 64) (by omega) hy
    exact ⟨v, hy, (placeChunk_above_iff hj hchunk htail hy).2 hw⟩

/-- The `j` chunks at the end of the string fill the `j` low-order slots. -/
theorem placeChunks_eq_ok_iff (hs : s.length ≤ 512) (hj : 8 * j ≤ s.length) :
    placeChunks s j = .ok w ↔ spells 0 (s.drop (s.length - 8 * j)) = some (val w) := by
  induction j generalizing w with
  | zero =>
    simp only [placeChunks, Nat.mul_zero, Nat.sub_zero, List.drop_length, spells, Except.ok.injEq, Option.some_inj]
    exact ⟨fun h => h ▸ (val_zero 64).symm, fun h => val_inj ((val_zero 64).trans h)⟩
  | succ j ih =>
    have hsplit : s.drop (s.length - 8 * (j + 1)) =
        (s.drop (s.length - 8 * (j + 1))).take 8 ++ s.drop (s.length - 8 * j) := by
      conv_lhs => rw [← List.take_append_drop 8 (s.drop (s.length - 8 * (j + 1))), List.drop_drop]
      congr 2
      omega
    rw [hsplit, ← exists_placeChunk_iff (j := j) (by omega) (List.length_take_le 8 _)
      (by rw [List.length_drop]; omega)]
    simp only [← ih (by omega), placeChunks]
    cases placeChunks s j <;> simp

/-- R81: within its length bound `Decode` answers exactly the value that the string spells. -/
theorem hexDecode_eq_ok_iff (hs : s.length ≤ 512) : hexDecode s = .ok w ↔ spells 0 s = some (val w) := by
  have hplace := fun v => placeChunks_eq_ok_iff (w := v) hs (Nat.mul_div_le s.length 8)
  have hrest : s.length - 8 * (s.length / 8) = s.length % 8 := by omega
  rw [hrest] at hplace
  simp only [hexDecode, if_neg (Nat.not_lt.2 hs)]
  by_cases hm : 0 < s.length % 8
  · conv_rhs => rw [← List.take_append_drop (s.length % 8) s]
    rw [← exists_placeChunk_iff (j := s.length / 8) (by omega) (by rw [List.length_take]; omega)
      (by rw [List.length_drop]; omega)]
    simp only [← hplace, if_pos hm]
    cases placeChunks s (s.length / 8) <;> simp
  · rw [Nat.eq_zero_of_not_pos hm, List.drop_zero] at hplace
    simp only [← hplace, if_neg hm]
    cases placeChunks s (s.length / 8) <;> simp

end Decode

theorem hexDecode_eq_zero {s : List Char} (hs : s.length ≤ 512) (h : spells 0 s = some 0) :
    hexDecode s = .ok (zero 64) :=
  (hexDecode_eq_ok_iff hs).2 (h.trans (congrArg some (val_zero 64).symm))

/-! ### Round trips -/

/-- `Decode` undoes `Encode`: the output is short enough to be read, and spells the value (R86). -/
theorem hexDecode_hexEncode (v : Narrow) : hexDecode (hexEncode v) = .ok v :=
  (hexDecode_eq_ok_iff (length_hexEncode_le v (by decide))).2 (spells_hexEncode v)

/-- The strings that the reverse round trip gives back are the outputs of `Encode`. -/
theorem hexEncode_eq_iff_exists {s : List Char} {v : Narrow} (h : hexDecode s = .ok v) :
    hexEncode v = s ↔ ∃ u : Narrow, hexEncode u = s := by
  refine ⟨fun hv => ⟨v, hv⟩, ?_⟩
  rintro ⟨u, rfl⟩
  have huv := (hexDecode_hexEncode u).symm.trans h
  rw [Except.ok.inj huv]

/-- Settles O55: every round trip is `hexDecode_hexEncode`, the zero strings are `Encode`'s zero test and the
number they spell. -/
theorem codecRoundTrip : Obligations.CodecRoundTrip := by
  refine ⟨fun v => ⟨hexDecode_hexEncode v, length_hexEncode_le v (by decide), spells_hexEncode v⟩,
    (hexEncode_eq_zero_iff _).2 (val_zero 64), (hexEncode_eq_zero_iff _).2 (val_zero 128),
    hexDecode_eq_zero (by decide) rfl, hexDecode_eq_zero (by decide) rfl, fun s v => hexEncode_eq_iff_exists,
    digitsOf 64 1, ?one, ?padded⟩
  case one => exact (hexDecode_eq_ok_iff (by decide)).2 (congrArg some (val_digitsOf_one (by decide)).symm)
  case padded => decide +kernel

end Sys2Proof.Machine
end

section
/-! SUPPORT. The borrow chain as the difference of two magnitudes, and the comparator on top of it as their order
(spec/43_subtract.md R105, R106; spec/41_compare.md R90, R91, R93). -/

namespace Sys2Proof.Machine

section Comparator

variable {n : Nat} (a b : Digits n)

/-! ### The difference and the borrow -/

/-- The borrow out of the most significant digit is what the difference lacks (R106). -/
theorem val_subDigits_add :
    val (subDigits a b).2 + val b = val a + (subDigits a b).1.toNat * 2 ^ (32 * n) := by
  obtain ⟨hvals, hborrow⟩ := subChain_val (a.size.trans b.size.symm)
  have hbit : (subDigits a b).1.toNat = (carryChain subStep (a.list.zip b.list)).1 :=
    Nat.mod_eq_of_lt (Nat.lt_succ_of_le hborrow)
  rwa [← hbit, a.size] at hvals

/-- The subtractor borrows when the minuend is the smaller (R106). -/
theorem subDigits_borrow_iff : (subDigits a b).1 = 1 ↔ val a < val b := by
  have hvals := val_subDigits_add a b
  have hr := val_lt (subDigits a b).2
  obtain h | h := BitVec.eq_zero_or_eq_one (subDigits a b).1
  · rw [h, BitVec.toNat_zero, Nat.zero_mul] at hvals
    exact iff_of_false (by rw [h]; decide) (by omega)
  · rw [h, BitVec.toNat_one Nat.one_pos, Nat.one_mul] at hvals
    exact iff_of_true h (by omega)

/-- With no borrow the difference is 0 when the values are equal (R91). -/
theorem val_subDigits_eq_zero_iff (h : ¬(subDigits a b).1 = 1) : val (subDigits a b).2 = 0 ↔ val a = val b := by
  have hvals := val_subDigits_add a b
  rw [(BitVec.eq_zero_or_eq_one _).resolve_right h, BitVec.toNat_zero, Nat.zero_mul] at hvals
  omega

/-! ### The comparator -/

/-- R91: the comparator's three outcomes are the order of magnitudes. -/
theorem compareDigits_eq :
    compareDigits a b = if val a < val b then .less else if val a = val b then .equal else .greater := by
  simp only [compareDigits, isZero_iff, ← subDigits_borrow_iff]
  by_cases hborrow : (subDigits a b).1 = 1
  · rw [if_pos hborrow, if_pos hborrow]
  · simp only [if_neg hborrow, val_subDigits_eq_zero_iff a b hborrow]

theorem compareDigits_eq_less_iff : compareDigits a b = .less ↔ val a < val b := by
  rw [compareDigits_eq]
  split_ifs with hlt heq
  · exact iff_of_true rfl hlt
  · exact iff_of_false nofun hlt
  · exact iff_of_false nofun hlt

theorem compareDigits_eq_equal_iff : compareDigits a b = .equal ↔ val a = val b := by
  rw [compareDigits_eq]
  split_ifs with hlt heq
  · exact iff_of_false nofun hlt.ne
  · exact iff_of_true rfl heq
  · exact iff_of_false nofun heq

theorem compareDigits_eq_greater_iff : compareDigits a b = .greater ↔ val b < val a := by
  rw [compareDigits_eq]
  split_ifs with hlt heq
  · exact iff_of_false nofun hlt.not_gt
  · exact iff_of_false nofun heq.not_gt
  · exact iff_of_true rfl (by omega)

/-- The zero detector decides what R90 asks of the string (R85, R91). -/
theorem compareDigits_eq_compareByEncode : compareDigits a b = compareByEncode a b := by
  simp only [compareDigits, compareByEncode, isZero_iff, hexEncode_eq_zero_iff]

end Comparator

/-- Settles O12: the borrow and the zero detector decide the order of magnitudes, and the detector's test is
R90's test of the encoded difference. -/
theorem compareIsTheOrder : Obligations.CompareIsTheOrder :=
  fun _ a b => ⟨compareDigits_eq_less_iff a b, compareDigits_eq_equal_iff a b, compareDigits_eq_greater_iff a b,
    compareDigits_eq_compareByEncode a b, (hexEncode_eq_zero_iff _).trans (val_eq_zero_iff _)⟩

/-- A short enough string that spells a number is read, as a value of that magnitude (R81). -/
theorem exists_hexDecode_of_spells {s : List Char} {x : Nat} (hs : s.length ≤ 512) (h : spells 0 s = some x) :
    ∃ v : Narrow, hexDecode s = .ok v ∧ val v = x := by
  obtain ⟨v, rfl⟩ := exists_val_of_spells (n := 64) hs h
  exact ⟨v, (hexDecode_eq_ok_iff hs).2 h, rfl⟩

/-- Settles O13: the order of magnitudes is antisymmetric and reflexive, and SROM's examples compare the numbers
that their strings spell. -/
theorem compareIsConsistent : Obligations.CompareIsConsistent := by
  refine ⟨fun n a b => (compareDigits_eq_greater_iff a b).trans (compareDigits_eq_less_iff b a).symm,
    fun n a => (compareDigits_eq_equal_iff a a).2 rfl, ?examples⟩
  case examples =>
    obtain ⟨v1, hdecode1, hval1⟩ := exists_hexDecode_of_spells (s := ['1']) (by decide) rfl
    obtain ⟨v2, hdecode2, hval2⟩ := exists_hexDecode_of_spells (s := ['2']) (by decide) rfl
    obtain ⟨v5, hdecode5, -⟩ := exists_hexDecode_of_spells (s := ['5']) (by decide) rfl
    have hlt : val v1 < val v2 := by
      rw [hval1, hval2]
      decide
    exact ⟨v1, v2, v5, hdecode1, hdecode2, hdecode5, (compareDigits_eq_greater_iff v2 v1).2 hlt,
      (compareDigits_eq_less_iff v1 v2).2 hlt, (compareDigits_eq_equal_iff v5 v5).2 rfl⟩

end Sys2Proof.Machine
end

section
/-! SUPPORT. A chain over the digits of two values position by position, and the adder as the quotient and the
remainder of the sum of two magnitudes (spec/42_add.md R95, R96, R99). -/

namespace Sys2Proof.Machine

/-! ### The carries of a chain -/

section Carries

variable {P : Nat → Prop} (h0 : P 0)
include h0

/-- The carries of a chain keep what the carry 0 into the last position satisfies and every step keeps. -/
theorem carryChain_positions_of_invariant {α : Type} {f : α → Nat → Nat × Digit}
    (hstep : ∀ x c, P c → P (f x c).1) (xs : List α) : ∃ c : Nat → Nat,
    c xs.length = 0 ∧
    (∀ i (h : i < xs.length), P (c (i + 1)) ∧ (carryChain f xs).2[i]? = some (f xs[i] (c (i + 1))).2 ∧
      c i = (f xs[i] (c (i + 1))).1) ∧
    (carryChain f xs).1 = c 0 ∧ P (c 0) := by
  obtain ⟨c, hlast, hpos, hout⟩ := carryChain_positions f xs
  have hinv : ∀ i, i ≤ xs.length → P (c i) := fun i hi =>
    Nat.decreasingInduction (motive := fun i _ => P (c i))
      (fun i hlt ih => (hpos i hlt).2 ▸ hstep _ _ ih) (hlast ▸ h0) hi
  exact ⟨c, hlast, fun i hi => ⟨hinv (i + 1) hi, hpos i hi⟩, hout, hinv 0 (Nat.zero_le _)⟩

/-- The same for a chain over the digits of two values, whose result digits are `r`: the loop of R95 and of
R105. -/
theorem zipChain_positions_of_invariant {f : Digit × Digit → Nat → Nat × Digit}
    (hstep : ∀ x c, P c → P (f x c).1) {n : Nat} (a b r : Digits n)
    (hr : r.list = (carryChain f (a.list.zip b.list)).2) : ∃ c : Nat → Nat,
    c n = 0 ∧
    (∀ i : Fin n, P (c (i + 1)) ∧ r.get i = (f (a.get i, b.get i) (c (i + 1))).2 ∧
      c i = (f (a.get i, b.get i) (c (i + 1))).1) ∧
    (carryChain f (a.list.zip b.list)).1 = c 0 ∧ P (c 0) := by
  have hlen : (a.list.zip b.list).length = n := by simp [a.size, b.size]
  obtain ⟨c, hlast, hpos, hout⟩ := carryChain_positions_of_invariant h0 hstep (a.list.zip b.list)
  refine ⟨c, hlen ▸ hlast, fun i => ?_, hout⟩
  obtain ⟨hcarry, hdigit, hnext⟩ := hpos i (hlen.symm ▸ i.isLt)
  rw [List.getElem_zip] at hdigit hnext
  refine ⟨hcarry, ?_, hnext⟩
  rw [← hr, List.getElem?_eq_getElem (r.size.symm ▸ i.isLt)] at hdigit
  exact Option.some.inj hdigit

end Carries

/-- Settles O7: the carries of the chain stay 0 or 1, which bounds each position's sum. -/
theorem addIsTheCarryLoop : Obligations.AddIsTheCarryLoop := by
  intro n a b
  obtain ⟨c, hlast, hpos, hout, hbit⟩ := zipChain_positions_of_invariant (P := (· ≤ 1)) (Nat.zero_le 1)
    (fun d c hc => (addStep_spec d hc).2) a b (addDigits a b).2 rfl
  refine ⟨c, hlast, fun i => ?position, ?carryOut⟩
  case position =>
    obtain ⟨hcarry, hdigit, hnext⟩ := hpos i
    have ha := (a.get i).isLt
    have hb := (b.get i).isLt
    exact ⟨by omega, (congrArg BitVec.toNat hdigit).trans (BitVec.toNat_ofNat _ _), hnext⟩
  case carryOut =>
    rw [← hout] at hbit ⊢
    exact Nat.mod_eq_of_lt (Nat.lt_succ_of_le hbit)

/-! ### The sum and the carry -/

section Sum

variable {n : Nat} (a b : Digits n)

/-- The chain splits the sum of the magnitudes at `2^(32n)` and loses nothing (R96). -/
theorem val_addDigits_add :
    val (addDigits a b).2 + (addDigits a b).1.toNat * 2 ^ (32 * n) = val a + val b := by
  obtain ⟨hvals, hcarry⟩ := addChain_val (a.size.trans b.size.symm)
  have hbit : (addDigits a b).1.toNat = (carryChain addStep (a.list.zip b.list)).1 :=
    Nat.mod_eq_of_lt (Nat.lt_succ_of_le hcarry)
  rwa [← hbit, a.size] at hvals

theorem addDigits_div_mod :
    (val a + val b) / 2 ^ (32 * n) = (addDigits a b).1.toNat ∧
      (val a + val b) % 2 ^ (32 * n) = val (addDigits a b).2 :=
  (Nat.div_mod_unique (by positivity)).2 ⟨by rw [Nat.mul_comm, val_addDigits_add], val_lt _⟩

/-- The adder is a function of the sum of the magnitudes: its quotient and its digits (R96). -/
theorem addDigits_eq :
    addDigits a b = (BitVec.ofNat 1 ((val a + val b) / 2 ^ (32 * n)), digitsOf n (val a + val b)) := by
  obtain ⟨hdiv, hmod⟩ := addDigits_div_mod a b
  refine Prod.ext ?_ (val_inj ?_)
  · rw [hdiv, BitVec.ofNat_toNat, BitVec.setWidth_eq]
  · rw [val_digitsOf, hmod]

/-- The carry comes out when the sum does not fit (R96). -/
theorem addDigits_carry_iff : (addDigits a b).1 = 1 ↔ 2 ^ (32 * n) ≤ val a + val b := by
  have hsum := val_addDigits_add a b
  have hr := val_lt (addDigits a b).2
  obtain h | h := BitVec.eq_zero_or_eq_one (addDigits a b).1
  · rw [h, BitVec.toNat_zero, Nat.zero_mul] at hsum
    exact iff_of_false (by rw [h]; decide) (by omega)
  · rw [h, BitVec.toNat_one Nat.one_pos, Nat.one_mul] at hsum
    exact iff_of_true h (by omega)

theorem addDigits_comm : addDigits a b = addDigits b a := by
  rw [addDigits_eq, addDigits_eq, Nat.add_comm]

/-- A sum that fits comes out whole, with no carry. -/
theorem addDigits_eq_of_add_eq {r : Digits n} (h : val a + val b = val r) : addDigits a b = (0, r) := by
  rw [addDigits_eq, h, Nat.div_eq_of_lt (val_lt r), digitsOf_val]
  rfl

/-- With no borrow the difference and the subtrahend add up to the minuend (R99). -/
theorem addDigits_subDigits (h : (subDigits a b).1 = 0) : addDigits (subDigits a b).2 b = (0, a) := by
  have hborrow : (subDigits a b).1.toNat = 0 := congrArg BitVec.toNat h
  have hvals := val_subDigits_add a b
  rw [hborrow, Nat.zero_mul] at hvals
  exact addDigits_eq_of_add_eq _ b hvals

end Sum

/-- Settles O8: the result is the remainder of the sum by `2^(32n)`, and the carry says whether the sum fits. -/
theorem addContract : Obligations.AddContract :=
  fun _ a b => ⟨val_addDigits_add a b, (addDigits_div_mod a b).2.symm, addDigits_carry_iff a b⟩

/-- Settles O9: the adder sees the sum of the magnitudes only; SROM's examples add the numbers that their strings
spell. -/
theorem addCommutesAndUndoesSub : Obligations.AddCommutesAndUndoesSub := by
  obtain ⟨one, hdecode1, hval1⟩ := exists_hexDecode_of_spells (s := ['1']) (x := 1) (by decide) rfl
  obtain ⟨top, hdecodeTop, hvalTop⟩ :=
    exists_hexDecode_of_spells (s := List.replicate 8 'f') (x := 0xffffffff) (by decide) rfl
  refine ⟨fun n a b => addDigits_comm a b, fun n a b => addDigits_subDigits a b, ⟨one, hdecode1, ?double⟩,
    top, one, hdecodeTop, hdecode1, ?ripple⟩
  case double =>
    have hval2 : val (digitsOf 64 2) = 2 := by decide +kernel
    rw [addDigits_eq_of_add_eq one one (r := digitsOf 64 2) (by rw [hval1, hval2])]
    exact hval2
  case ripple =>
    have hvalSum : val (digitsOf 64 0x100000000) = 0x100000000 := by decide +kernel
    rw [addDigits_eq_of_add_eq top one (r := digitsOf 64 0x100000000) (by rw [hvalTop, hval1, hvalSum])]
    exact ⟨rfl, by decide +kernel, by decide +kernel, hvalSum⟩

end Sys2Proof.Machine
end

section
/-! SUPPORT. The borrow loop position by position, and the difference of two magnitudes over the integers
(spec/43_subtract.md R105, R106). -/

namespace Sys2Proof.Machine

/-! ### One position of the loop -/

section Position

variable (x y : Digit) {bw : Nat} (hbw : bw ≤ 1)
include hbw

/-- R105's bounds on the signed intermediate. -/
theorem subIntermediate_bounds :
    -(2 ^ 32 : Int) ≤ (x.toNat : Int) - y.toNat - bw ∧ (x.toNat : Int) - y.toNat - bw ≤ 2 ^ 32 - 1 := by
  have hx := x.isLt
  have hy := y.isLt
  omega

/-- An intermediate that is not negative is the digit, and nothing is borrowed (R105). -/
theorem subStep_of_nonneg (ht : 0 ≤ (x.toNat : Int) - y.toNat - bw) :
    ((subStep (x, y) bw).2.toNat : Int) = (x.toNat : Int) - y.toNat - bw ∧ (subStep (x, y) bw).1 = 0 := by
  obtain ⟨hsum, hborrow⟩ := subStep_spec (x, y) hbw
  have hdigit := (subStep (x, y) bw).2.isLt
  dsimp only at hsum
  omega

/-- A negative intermediate wraps, and one is borrowed (R105). -/
theorem subStep_of_neg (ht : ¬0 ≤ (x.toNat : Int) - y.toNat - bw) :
    ((subStep (x, y) bw).2.toNat : Int) = (x.toNat : Int) - y.toNat - bw + 2 ^ 32 ∧ (subStep (x, y) bw).1 = 1 := by
  obtain ⟨hsum, hborrow⟩ := subStep_spec (x, y) hbw
  have hdigit := (subStep (x, y) bw).2.isLt
  dsimp only at hsum
  omega

end Position

/-- Settles O10: the borrows of the chain stay 0 or 1, which bounds each position's intermediate; its sign then
decides the digit and the next borrow. -/
theorem subIsTheBorrowLoop : Obligations.SubIsTheBorrowLoop := by
  intro n a b
  obtain ⟨bw, hlast, hpos, hout, hbit⟩ := zipChain_positions_of_invariant (P := (· ≤ 1)) (Nat.zero_le 1)
    (fun d c hc => (subStep_spec d hc).2) a b (subDigits a b).2 rfl
  refine ⟨bw, hlast, fun i => ?position, ?borrowOut⟩
  case position =>
    obtain ⟨hborrow, hdigit, hnext⟩ := hpos i
    refine ⟨subIntermediate_bounds _ _ hborrow, ?_⟩
    rw [hdigit, hnext]
    split_ifs with ht
    · exact subStep_of_nonneg _ _ hborrow ht
    · exact subStep_of_neg _ _ hborrow ht
  case borrowOut =>
    rw [← hout] at hbit ⊢
    exact Nat.mod_eq_of_lt (Nat.lt_succ_of_le hbit)

/-! ### The difference over the integers -/

section Difference

variable {n : Nat} (a b : Digits n)

/-- The chain loses nothing of the signed difference (R106). -/
theorem val_subDigits_sub :
    (val (subDigits a b).2 : Int) - (subDigits a b).1.toNat * 2 ^ (32 * n) = (val a : Int) - val b := by
  have hvals : (val (subDigits a b).2 : Int) + val b = val a + (subDigits a b).1.toNat * 2 ^ (32 * n) :=
    mod_cast val_subDigits_add a b
  linarith only [hvals]

/-- The result is the remainder of the difference: it is that plus a multiple of `2^(32n)`, and in range (R106). -/
theorem val_subDigits_eq_emod :
    (val (subDigits a b).2 : Int) = ((val a : Int) - val b) % 2 ^ (32 * n) := by
  have hlt : (val (subDigits a b).2 : Int) < 2 ^ (32 * n) := mod_cast val_lt (subDigits a b).2
  rw [← val_subDigits_sub, Int.sub_mul_emod_self_right, Int.emod_eq_of_lt (Int.natCast_nonneg _) hlt]

end Difference

/-- Settles O11: the result is the remainder of the signed difference by `2^(32n)`, and the borrow says whether the
minuend is the smaller. -/
theorem subContract : Obligations.SubContract :=
  fun _ a b => ⟨val_subDigits_sub a b, val_subDigits_eq_emod a b, subDigits_borrow_iff a b⟩

end Sys2Proof.Machine
end

section
/-! SUPPORT. The multiply-accumulate loop position by position, and its digits as the exact product
(spec/44_mul_by_digit.md R113, R114, R116). -/

namespace Sys2Proof.Machine

/-! ### One position of the loop -/

section Position

variable (m d : Digit) {c : Nat} (hc : c ≤ 2 ^ 32 - 2)
include hc

/-- R113's bound on the intermediate: it fits in 64 bits (R114 (b)). -/
theorem mulIntermediate_le : d.toNat * m.toNat + c ≤ 2 ^ 64 - 2 ^ 32 - 1 := by
  have hd : d.toNat ≤ 2 ^ 32 - 1 := Nat.le_sub_one_of_lt d.isLt
  have hm : m.toNat ≤ 2 ^ 32 - 1 := Nat.le_sub_one_of_lt m.isLt
  calc d.toNat * m.toNat + c ≤ (2 ^ 32 - 1) * (2 ^ 32 - 1) + (2 ^ 32 - 2) := Nat.add_le_add (Nat.mul_le_mul hd hm) hc
    _ = 2 ^ 64 - 2 ^ 32 - 1 := by norm_num

/-- Every step keeps R113's bound on the carry, which is tighter than one digit (R114 (b)). -/
theorem mulStep_carry_le : (mulStep m d c).1 ≤ 2 ^ 32 - 2 := by
  have ht := mulIntermediate_le m d hc
  simp only [mulStep]
  omega

end Position

/-! ### The digits of the product, range by range -/

section Digits

variable (a : Narrow) (m : Digit)

/-- The loop writes none of the digits above the final carry's slot (R114 (a)). -/
theorem get_mulByDigit_of_lt {i : Fin 128} (h : i.val < 63) : (mulByDigit a m).get i = 0 := by
  rw [get_mulByDigit, if_pos h]

theorem toNat_get_mulByDigit_carry : ((mulByDigit a m).get 63).toNat = (carryChain (mulStep m) a.list).1 := by
  rw [get_mulByDigit, if_neg (by decide), if_pos (by decide)]
  exact Nat.mod_eq_of_lt (mulChain_val m a.list).2

/-- Digit `j` of the chain stands in the low-order half. -/
theorem get_mulByDigit_low (j : Fin 64) :
    (mulByDigit a m).get ⟨64 + j, by omega⟩ = ((carryChain (mulStep m) a.list).2[j.val]?).getD 0 := by
  rw [get_mulByDigit, if_neg (by simp only; omega), if_neg (by simp only; omega)]
  simp only [Nat.add_sub_cancel_left]

end Digits

/-- Settles O14: the carries of the chain stay at most `2^32 - 2`, which bounds each position's intermediate. -/
theorem mulByDigitIsTheLoop : Obligations.MulByDigitIsTheLoop := by
  intro a m
  obtain ⟨c, hlast, hpos, hout, -⟩ := carryChain_positions_of_invariant (P := (· ≤ 2 ^ 32 - 2)) (Nat.zero_le _)
    (fun d _ hc => mulStep_carry_le m d hc) a.list
  refine ⟨c, a.size ▸ hlast, fun j => ?position, (toNat_get_mulByDigit_carry a m).trans hout,
    fun i hi => get_mulByDigit_of_lt a m hi⟩
  case position =>
    obtain ⟨hcarry, hdigit, hnext⟩ := hpos j (a.size.symm ▸ j.isLt)
    refine ⟨mulIntermediate_le m (a.get j) hcarry, hnext, ?_⟩
    rw [get_mulByDigit_low, hdigit, Option.getD_some]
    exact BitVec.toNat_ofNat _ _

/-! ### The product -/

section Product

variable (a : Narrow) (m : Digit)

/-- The final carry in digit 63 makes up what the chain's 64 digits do not hold (R116). -/
theorem val_mulByDigit : val (mulByDigit a m) = val a * m.toNat := by
  obtain ⟨hvals, hcarry⟩ := mulChain_val m a.list
  rw [val, mulByDigit, listVal_append, listVal_replicate_zero, Nat.zero_mul, Nat.zero_add, listVal,
    BitVec.toNat_ofNat, Nat.mod_eq_of_lt hcarry, carryChain_length, Nat.add_comm, hvals, val]

theorem val_mulByDigit_lt : val (mulByDigit a m) < 2 ^ 2080 := by
  rw [val_mulByDigit]
  calc val a * m.toNat < 2 ^ (32 * 64) * 2 ^ 32 := Nat.mul_lt_mul'' (val_lt a) m.isLt
    _ = 2 ^ 2080 := by rw [← pow_add]

end Product

/-- Settles O15: the loop loses nothing of the product, and its factors are below `2^2048` and `2^32`. -/
theorem mulByDigitIsExact : Obligations.MulByDigitIsExact :=
  fun a m => ⟨val_mulByDigit a m, val_mulByDigit_lt a m⟩

end Sys2Proof.Machine
end

section
/-! SUPPORT. The digits and the magnitude of a shifted value, and the count of a `SHLD` word
(spec/45_shift_digits.md R120, R121; spec/30_encoding.md R66). -/

namespace Sys2Proof

/-- The digits that stay when the leading ones are lost are the remainder by the first lost place (R120). -/
theorem listVal_drop (ds : List Digit) (p : Nat) :
    listVal (ds.drop p) = listVal ds % 2 ^ (32 * (ds.length - p)) := by
  have hsplit : listVal ds = listVal (ds.take p) * 2 ^ (32 * (ds.length - p)) + listVal (ds.drop p) := by
    rw [← List.length_drop, ← listVal_append, List.take_append_drop]
  have hlt := listVal_lt (ds.drop p)
  rw [List.length_drop] at hlt
  rw [hsplit, Nat.mul_add_mod_self_right, Nat.mod_eq_of_lt hlt]

end Sys2Proof

namespace Sys2Proof.Machine

/-! ### The shifted value -/

section ShiftedValue

variable {n : Nat} (v : Digits n) {p : Nat}

theorem get_shiftSlots_of_lt {i : Fin n} (h : i.val + p < n) : (shiftSlots v p).get i = v.get ⟨i.val + p, h⟩ := by
  rw [get_shiftSlots, dif_pos h]

theorem get_shiftSlots_of_le {i : Fin n} (h : n ≤ i.val + p) : (shiftSlots v p).get i = 0 := by
  rw [get_shiftSlots, dif_neg (Nat.not_lt.2 h)]

/-- A count of all the slots leaves no digit (R121). -/
theorem shiftSlots_self : shiftSlots v n = zero n :=
  Slots.ext_get fun i => (get_shiftSlots_of_le v (Nat.le_add_left n i)).trans (Slots.get_fill 0 i).symm

/-- The lost digits are those that the product has above the `n` slots (R120). -/
theorem val_shiftSlots (hp : p ≤ n) : val (shiftSlots v p) = val v * 2 ^ (32 * p) % 2 ^ (32 * n) := by
  have hplaces : 2 ^ (32 * n) = 2 ^ (32 * (n - p)) * 2 ^ (32 * p) := by
    rw [← pow_add, ← Nat.mul_add, Nat.sub_add_cancel hp]
  calc val (shiftSlots v p)
      = listVal (v.list.drop p) * 2 ^ (32 * p) := by
        rw [val, shiftSlots, listVal_append, listVal_replicate_zero, List.length_replicate, Nat.min_eq_left hp,
          Nat.add_zero]
    _ = val v % 2 ^ (32 * (n - p)) * 2 ^ (32 * p) := by rw [listVal_drop, v.size, val]
    _ = val v * 2 ^ (32 * p) % 2 ^ (32 * n) := by rw [hplaces, Nat.mul_mod_mul_right]

end ShiftedValue

/-! ### The count -/

theorem shiftDigitsLeft_of_mem_range (buf : Wide) {p : Int} (h0 : 0 ≤ p) (h128 : p ≤ 128) :
    shiftDigitsLeft buf p = some (shiftSlots buf p.toNat) :=
  if_pos ⟨h0, h128⟩

theorem shiftDigitsLeft_of_not_mem_range (buf : Wide) {p : Int} (h : p < 0 ∨ 128 < p) :
    shiftDigitsLeft buf p = none :=
  if_neg (by omega)

/-- Settles O16: the result is `shiftSlots`, whose digits and magnitude are known for every length. -/
theorem shiftMovesDigits : Obligations.ShiftMovesDigits := by
  intro buf p hp
  refine ⟨shiftSlots buf p, shiftDigitsLeft_of_mem_range buf (Int.natCast_nonneg p) (mod_cast hp),
    fun i hi => get_shiftSlots_of_lt buf (Nat.lt_succ_of_le hi),
    fun i hi => get_shiftSlots_of_le buf (Nat.sub_le_iff_le_add.1 hi), ?magnitude⟩
  case magnitude => simpa only [Nat.reduceMul] using val_shiftSlots buf hp

end Sys2Proof.Machine

namespace Sys2Proof.Laws

/-- Only the row of `SHLD` makes a `SHLD` of the fields. -/
theorem assemble_eq_shld {op : Opcode} {f : CmdFields} {rd ra : WReg} {p : Fin 128}
    (h : assemble op f = .shld rd ra p) : op = .shld ∧ Fin.ofNat 128 f.imm.toNat = p := by
  cases op <;> simp only [assemble, reduceCtorEq, Instr.shld.injEq] at h
  case shld =>
    obtain ⟨-, -, hcount⟩ := h
    exact ⟨rfl, hcount⟩

/-- The row of `SHLD` asks that the top bit of the count's field be zero (R63, R66). -/
theorem imm_le_of_selected_shld {c : Word} {r : Row} (hr : r ∈ opcodeMap) (hop : r.op = .shld)
    (hc : c &&& r.mask = r.pattern) : (fieldsOf c).imm ≤ 127 := by
  have hrow : ∀ r ∈ opcodeMap, r.op = .shld → (fieldsOf r.mask).imm = 0x80 ∧ (fieldsOf r.pattern).imm = 0 := by
    decide
  obtain ⟨hmask, hpattern⟩ := hrow r hr hop
  obtain ⟨-, -, -, -, -, himm⟩ := (and_eq_iff _ _ _).1 hc
  rw [hmask, hpattern] at himm
  exact (and_shiftCountMask_eq_zero_iff _).1 himm

/-- A decoded `SHLD` has its count as its low byte: the reduction to 7 bits loses nothing (R66). -/
theorem imm_of_decode_shld {c : Word} {rd ra : WReg} {p : Fin 128} (h : decode c = .ok (.shld rd ra p)) :
    (fieldsOf c).imm.toNat = p.val := by
  cases hrow : rowOf c with
  | none => simp [decode, hrow] at h
  | some r =>
    rw [decode_of_rowOf hrow] at h
    obtain ⟨hop, rfl⟩ := assemble_eq_shld (Except.ok.inj h)
    obtain ⟨hr, hc⟩ := rowOf_some hrow
    have himm : (fieldsOf c).imm.toNat ≤ 127 := imm_le_of_selected_shld hr hop hc
    exact (Nat.mod_eq_of_lt (Nat.lt_succ_of_le himm)).symm

end Sys2Proof.Laws

namespace Sys2Proof.Machine

/-- Settles O17: the function answers in its range only, and a decoded count is the low byte of its word. -/
theorem shiftRefusesOtherCounts : Obligations.ShiftRefusesOtherCounts := by
  refine ⟨fun buf p h => shiftDigitsLeft_of_not_mem_range buf h,
    fun buf p h0 h128 => ⟨_, shiftDigitsLeft_of_mem_range buf h0 h128⟩, fun buf => ?allLost,
    fun c rd ra p h => ⟨Laws.imm_of_decode_shld h, Nat.le_of_lt_succ p.isLt⟩⟩
  case allLost =>
    rw [shiftDigitsLeft_of_mem_range buf (by decide) le_rfl]
    exact congrArg some (shiftSlots_self buf)

end Sys2Proof.Machine
end

section
/-! SUPPORT. The running total of the schoolbook loop as a number, and the product it ends with
(spec/46_multiply.md R127, R129). -/

namespace Sys2Proof

/-- The leading digits, at their place value, are no more than the whole value (R9). -/
theorem listVal_take_mul_le_val {n : Nat} (v : Digits n) (i : Nat) :
    listVal (v.list.take i) * 2 ^ (32 * (n - i)) ≤ val v := by
  rw [val, ← v.list.take_append_drop i, listVal_append, List.length_drop, v.size, List.take_append_drop]
  exact Nat.le_add_right _ _

/-- One digit more, at its place value (R9). -/
theorem listVal_take_succ {n : Nat} (v : Digits n) (i : Fin n) :
    listVal (v.list.take (i.val + 1)) = listVal (v.list.take i.val) * 2 ^ 32 + (v.get i).toNat := by
  rw [← List.take_append_getElem (v.size.symm ▸ i.isLt), listVal_append]
  simp [listVal, Slots.get]

theorem digitsOf_zero (n : Nat) : digitsOf n 0 = zero n :=
  val_inj (by rw [val_digitsOf, Nat.zero_mod, val_zero])

end Sys2Proof

namespace Sys2Proof.Machine

/-- What the total is to be after the first `i` digits of the multiplier: the multiplicand times those digits read as
a number, at their place value (R129). -/
def productSoFar (a b : Narrow) (i : Nat) : Nat := val a * listVal (b.list.take i) * 2 ^ (32 * (64 - i))

section Total

variable (a b : Narrow)

theorem productSoFar_zero : productSoFar a b 0 = 0 := by
  rw [productSoFar, List.take_zero, listVal, Nat.mul_zero, Nat.zero_mul]

theorem productSoFar_all : productSoFar a b 64 = val a * val b := by
  simp [productSoFar, val, List.take_of_length_le b.size.le]

theorem productSoFar_succ (i : Fin 64) :
    productSoFar a b (i.val + 1) = productSoFar a b i.val + val a * (b.get i).toNat * 2 ^ (32 * (63 - i.val)) := by
  have hplace : 32 * (64 - i.val) = 32 + 32 * (63 - i.val) := by omega
  rw [productSoFar, productSoFar, listVal_take_succ, hplace, pow_add, show 64 - (i.val + 1) = 63 - i.val by omega]
  ring

/-- What is taken so far is no more than the whole product, which fits in 128 digits (R129). -/
theorem productSoFar_lt (i : Nat) : productSoFar a b i < 2 ^ (32 * 128) := by
  have hleading : listVal (b.list.take i) * 2 ^ (32 * (64 - i)) ≤ val b := listVal_take_mul_le_val b i
  calc productSoFar a b i = val a * (listVal (b.list.take i) * 2 ^ (32 * (64 - i))) := Nat.mul_assoc ..
    _ ≤ val a * val b := Nat.mul_le_mul_left _ hleading
    _ < 2 ^ (32 * 64) * 2 ^ (32 * 64) := Nat.mul_lt_mul'' (val_lt a) (val_lt b)
    _ = 2 ^ (32 * 128) := by rw [← pow_add]

/-- The shift loses nothing: a partial product has 65 digits, and there are 63 slots above them (R127, R129). -/
theorem val_alignedProduct (i : Fin 64) :
    val (alignedProduct a b i) = val a * (b.get i).toNat * 2 ^ (32 * (63 - i.val)) := by
  have hfits : val a * (b.get i).toNat * 2 ^ (32 * (63 - i.val)) < 2 ^ (32 * 128) :=
    (Nat.le_add_left _ _).trans_lt (productSoFar_succ a b i ▸ productSoFar_lt a b (i.val + 1))
  rw [alignedProduct, val_shiftSlots _ (by omega), val_mulByDigit, Nat.mod_eq_of_lt hfits]

/-- The last digit is in its place already (R127). -/
theorem alignedProduct_last : alignedProduct a b 63 = mulByDigit a (b.get 63) :=
  val_inj (by rw [val_alignedProduct, val_mulByDigit]; simp)

/-- Accumulating one partial product takes the total on by one digit of the multiplier, with no carry (R129). -/
theorem addDigits_productSoFar (i : Fin 64) :
    addDigits (digitsOf 128 (productSoFar a b i.val)) (alignedProduct a b i) =
      (0, digitsOf 128 (productSoFar a b (i.val + 1))) := by
  apply addDigits_eq_of_add_eq
  rw [val_digitsOf_of_lt (productSoFar_lt a b _), val_digitsOf_of_lt (productSoFar_lt a b _), val_alignedProduct,
    productSoFar_succ]

theorem accumulate_take_succ (acc : Wide) (i : Fin 64) :
    accumulate a b ((List.finRange 64).take (i.val + 1)) acc =
      (addDigits (accumulate a b ((List.finRange 64).take i.val) acc) (alignedProduct a b i)).2 := by
  rw [accumulate, ← List.take_append_getElem (by simp), List.foldl_append, List.getElem_finRange]
  rfl

/-- The running total is exact after each digit (R129). -/
theorem accumulate_take {i : Nat} (hi : i ≤ 64) :
    accumulate a b ((List.finRange 64).take i) (zero 128) = digitsOf 128 (productSoFar a b i) := by
  induction i with
  | zero => exact (productSoFar_zero a b).symm ▸ (digitsOf_zero 128).symm
  | succ i ih =>
    rw [accumulate_take_succ a b _ ⟨i, hi⟩, ih (Nat.le_of_lt hi), addDigits_productSoFar a b ⟨i, hi⟩]

theorem accumulate_take_all (acc : Wide) :
    accumulate a b ((List.finRange 64).take 64) acc = accumulate a b (List.finRange 64) acc :=
  congrArg (accumulate a b · acc) (List.take_of_length_le (List.length_finRange).le)

theorem val_multiply : val (multiply a b) = val a * val b := by
  rw [multiply, ← accumulate_take_all, accumulate_take a b le_rfl, val_digitsOf_of_lt (productSoFar_lt a b _),
    productSoFar_all]

/-- Every accumulation of the loop has carry-out 0 (R129). -/
theorem addDigits_accumulate_carry (i : Fin 64) :
    (addDigits (accumulate a b ((List.finRange 64).take i.val) (zero 128)) (alignedProduct a b i)).1 = 0 := by
  rw [accumulate_take a b i.isLt.le, addDigits_productSoFar]

end Total

/-- Settles O18: the total after each digit is the product of the digits taken, which fits, so that no shift and no
accumulation loses anything. -/
theorem multiplyIsExact : Obligations.MultiplyIsExact := by
  refine fun a b => ⟨val_multiply a b, fun i => ⟨?total, val_alignedProduct a b i, addDigits_accumulate_carry a b i⟩⟩
  case total => rw [accumulate_take a b i.isLt.le, val_digitsOf_of_lt (productSoFar_lt a b _), productSoFar]

end Sys2Proof.Machine
end

section
/-! SUPPORT. Programs of host accesses: what a stream of events leads to, composed from its parts
(spec/20_memory.md R48; spec/30_encoding.md R72). -/

namespace Sys2Proof.Machine

/-- From every state that satisfies `P` and faces the events `es`, running them all ends in a state that satisfies
`Q`, with the rest of the host's stream still to come. -/
def Leads (P : State → Prop) (es : List Event) (Q : State → Prop) : Prop :=
  ∀ (s : State) (rest : List Event), s.pending = es ++ rest → P s →
    ∃ t, run es.length s = .next t ∧ t.pending = rest ∧ Q t

theorem Leads.nil (P : State → Prop) : Leads P [] P :=
  fun s _ hs hP => ⟨s, rfl, hs, hP⟩

theorem Leads.append {P Q R : State → Prop} {es fs : List Event} (he : Leads P es Q) (hf : Leads Q fs R) :
    Leads P (es ++ fs) R := by
  intro s rest hs hP
  obtain ⟨t, hst, ht, hQ⟩ := he s (fs ++ rest) (by rw [hs, List.append_assoc]) hP
  obtain ⟨u, htu, hu, hR⟩ := hf t rest ht hQ
  exact ⟨u, by rw [List.length_append, run_add _ _ hst, htu], hu, hR⟩

theorem Leads.consequence {P P' Q Q' : State → Prop} {es : List Event} (h : Leads P es Q) (hP : ∀ s, P' s → P s)
    (hQ : ∀ s, Q s → Q' s) : Leads P' es Q' := by
  intro s rest hs hs'
  obtain ⟨t, hst, ht, hqt⟩ := h s rest hs (hP s hs')
  exact ⟨t, hst, ht, hQ t hqt⟩

theorem Leads.cons {P Q R : State → Prop} {e : Event} {es : List Event} (he : Leads P [e] Q) (hes : Leads Q es R) :
    Leads P (e :: es) R :=
  he.append hes

theorem Leads.of_step {P Q : State → Prop} {e : Event}
    (h : ∀ (s : State) (rest : List Event), s.pending = e :: rest → P s →
      ∃ t, step s = .next t ∧ t.pending = rest ∧ Q t) : Leads P [e] Q := by
  intro s rest hs hP
  obtain ⟨t, hst, ht, hQ⟩ := h s rest hs hP
  exact ⟨t, run_succ 0 hst, ht, hQ⟩

/-- A loop over the indices: each round takes the invariant from its index to the next. -/
theorem Leads.loop : ∀ {n : Nat} {f : Fin n → List Event} {I : Nat → State → Prop},
    (∀ i : Fin n, Leads (I i.val) (f i) (I (i.val + 1))) → Leads (I 0) ((List.finRange n).flatMap f) (I n)
  | 0, _, I, _ => .nil (I 0)
  | n + 1, f, I, h => by
    have hinit : Leads (I 0) ((List.finRange n).flatMap fun i => f i.castSucc) (I n) :=
      Leads.loop fun i => h i.castSucc
    rw [List.finRange_succ_last, List.flatMap_append, List.flatMap_map, List.flatMap_singleton]
    exact hinit.append (h (Fin.last n))

/-- The predicate is about the block and not about the host's stream. -/
def IgnoresStream (P : State → Prop) : Prop :=
  ∀ (s : State) (pending : List Event) (responses : List Response), P s →
    P { s with pending := pending, responses := responses }

/-- A `CMD` write of a command leads where the command does. -/
theorem Leads.cmdWrite {P Q : State → Prop} {i : Instr} (hPs : IgnoresStream P) (hQs : IgnoresStream Q)
    (hd : decode (encode i) = .ok i)
    (h : ∀ s : State, P s → ∃ u, exec i s = .next u ∧ u.pending = s.pending ∧ Q u) : Leads P [cmdWrite i] Q := by
  refine .of_step fun s rest hs hP => ?_
  obtain ⟨u, hu, hpending, hQ⟩ := h { s with pending := rest } (hPs s rest s.responses hP)
  exact ⟨respond .ok u, step_cmd hs hd hu, hpending, hQs u u.pending (u.responses ++ [Response.ok]) hQ⟩

/-- A host write of a wide digit leads where the write does (R47). -/
theorem Leads.writeWDigit {P Q : State → Prop} {r : WReg} {k : Fin 128} {d : Digit} (hPs : IgnoresStream P)
    (hQs : IgnoresStream Q) (h : ∀ s : State, P s → Q (writeWDigit r k d s)) :
    Leads P [.write (addrW r k) d] Q := by
  refine .of_step fun s rest hs hP => ⟨_, step_writeW hs, rfl, ?_⟩
  exact hQs _ rest (s.responses ++ [Response.ok]) (h { s with pending := rest } (hPs s rest s.responses hP))

end Sys2Proof.Machine
end

section
/-! SUPPORT. The `CMD` words of the host-driven multiplication decode to the commands they were encoded from
(spec/30_encoding.md R61, R63, R73). -/

namespace Sys2Proof.Laws

/-- Each field of a word stands at its own place (R61), compared bit by bit. -/
theorem fieldsOf_wordOf (f : CmdFields) : fieldsOf (wordOf f) = f := by
  obtain ⟨op, rd, ra, rb, z, imm⟩ := f
  simp only [fieldsOf, wordOf, CmdFields.mk.injEq]
  refine ⟨?_, ?_, ?_, ?_, ?_, ?_⟩ <;> ext i hi <;> simp only [BitVec.getElem_extractLsb', BitVec.getLsbD_append] <;>
    interval_cases i <;> rfl

theorem decode_of_selected {c : Word} {r : Row} (hr : r ∈ opcodeMap) (hc : c &&& r.mask = r.pattern) :
    decode c = .ok (assemble r.op (fieldsOf c)) := by
  cases hrow : rowOf c with
  | none => exact absurd (decide_eq_true hc) (List.find?_eq_none.1 hrow r hr)
  | some r' =>
    obtain ⟨hr', hc'⟩ := rowOf_some hrow
    rw [decode_of_rowOf hrow, selected_unique hr hc hr' hc']

/-- A command decodes from its word when the row of its opcode makes it again of its fields (R73). -/
theorem decode_encode_of_row {i : Instr} {r : Row} (hi : FieldsLegal.Statement i) (hr : r ∈ opcodeMap)
    (hop : i.fields.op = (fieldsOf r.pattern).op) (hmake : assemble r.op i.fields = i) :
    decode (encode i) = .ok i := by
  obtain ⟨hwf, hword⟩ := hi
  have hfields : fieldsOf (encode i) = i.fields := by rw [hword, fieldsOf_wordOf]
  have hselects : encode i &&& r.mask = r.pattern :=
    (selected_iff_wellFormed hr (by rw [hfields, hop])).2 (by rw [hfields]; exact hwf)
  rw [decode_of_selected hr hselects, hfields, hmake]

@[simp] theorem regNumber_ofNat (r : Fin 4) : regNumber (.ofNat 4 r.val) = r := by
  revert r; decide

theorem decode_encode_addw (rd ra rb : WReg) : decode (encode (.addw rd ra rb)) = .ok (.addw rd ra rb) :=
  decode_encode_of_row (r := ⟨.addw, 0x02000000, 0xFFCCCFFF⟩) (FieldsLegal.addw rd ra rb) (by decide) rfl
    (by simp [assemble, Instr.fields])

theorem decode_encode_muld (rd : WReg) (ra rb : NReg) (k : Fin 64) :
    decode (encode (.muld rd ra rb k)) = .ok (.muld rd ra rb k) := by
  have hk : Fin.ofNat 64 (BitVec.ofNat 8 k.val).toNat = k := by revert k; decide
  exact decode_encode_of_row (r := ⟨.muld, 0x05000000, 0xFFCCCFC0⟩) (FieldsLegal.muld rd ra rb k) (by decide) rfl
    (by simp only [assemble, Instr.fields, regNumber_ofNat, hk])

theorem decode_encode_shld (rd ra : WReg) (p : Fin 128) :
    decode (encode (.shld rd ra p)) = .ok (.shld rd ra p) := by
  have hp : Fin.ofNat 128 (BitVec.ofNat 8 p.val).toNat = p := by revert p; decide
  exact decode_encode_of_row (r := ⟨.shld, 0x06000000, 0xFFCCFF80⟩) (FieldsLegal.shld rd ra p) (by decide) rfl
    (by simp only [assemble, Instr.fields, regNumber_ofNat, hp])

end Sys2Proof.Laws
end

section
/-! SUPPORT. The host-driven multiplication, access by access, and that it ends with what `MUL` writes
(spec/46_multiply.md R127, R130, R131). -/

namespace Sys2Proof.Machine

/-! ### What holds between the accesses -/

/-- The program has touched no narrow register, no `CMP`, and no wide register but `Wd` and `Wt`. -/
structure KeepsOutside (wd wt : WReg) (s t : State) : Prop where
  narrow : KeepsN s t
  cmp : t.cmp = s.cmp
  wide : ∀ q, q ≠ wd → q ≠ wt → t.w.get q = s.w.get q ∧ t.wWritten.get q = s.wWritten.get q

/-- Between two rounds: `Wd` has the value `total`. -/
structure HoldsTotal (wd wt : WReg) (s : State) (total : Wide) (t : State) : Prop extends
    KeepsOutside wd wt s t where
  total : t.w.get wd = total
  totalWritten : allWritten (t.wWritten.get wd) = true

/-- Within a round: `Wt` has the value `part` besides. -/
structure HoldsPart (wd wt : WReg) (s : State) (total part : Wide) (t : State) : Prop extends
    HoldsTotal wd wt s total t where
  part : t.w.get wt = part
  partWritten : allWritten (t.wWritten.get wt) = true

section Accesses

variable {wd wt : WReg} {na nb : NReg} {s t : State} {total part : Wide}

theorem KeepsOutside.refl : KeepsOutside wd wt s s :=
  ⟨⟨rfl, rfl⟩, rfl, fun _ _ _ => ⟨rfl, rfl⟩⟩

theorem holdsTotal_ignoresStream : IgnoresStream (HoldsTotal wd wt s total) :=
  fun _ _ _ h => ⟨⟨h.narrow, h.cmp, h.wide⟩, h.total, h.totalWritten⟩

theorem holdsPart_ignoresStream : IgnoresStream (HoldsPart wd wt s total part) :=
  fun t ps rs h => ⟨holdsTotal_ignoresStream t ps rs h.toHoldsTotal, h.part, h.partWritten⟩

/-- Writing `Wt` gives it a part and leaves the total. -/
theorem HoldsTotal.writeW (hne : wt ≠ wd) (h : HoldsTotal wd wt s total t) (v : Wide) :
    HoldsPart wd wt s total v (writeW wt v t) where
  narrow := h.narrow
  cmp := h.cmp
  wide q hd ht := by simpa [Slots.get_set_ne, ht.symm] using h.wide q hd ht
  total := by simpa [Slots.get_set_ne, hne] using h.total
  totalWritten := by simpa [Slots.get_set_ne, hne] using h.totalWritten
  part := by simp
  partWritten := by simp

/-- Writing `Wd` gives it a new total and leaves the part. -/
theorem HoldsPart.writeW (hne : wt ≠ wd) (h : HoldsPart wd wt s total part t) (v : Wide) :
    HoldsPart wd wt s v part (writeW wd v t) where
  narrow := h.narrow
  cmp := h.cmp
  wide q hd ht := by simpa [Slots.get_set_ne, hd.symm] using h.wide q hd ht
  total := by simp
  totalWritten := by simp
  part := by simpa [Slots.get_set_ne, hne.symm] using h.part
  partWritten := by simpa [Slots.get_set_ne, hne.symm] using h.partWritten

theorem HoldsPart.setCB (h : HoldsPart wd wt s total part t) (c : BitVec 1) :
    HoldsPart wd wt s total part (setCB c t) :=
  ⟨⟨⟨h.narrow, h.cmp, h.wide⟩, h.total, h.totalWritten⟩, h.part, h.partWritten⟩

/-- Writing one digit of `Wd` touches nothing outside. -/
theorem KeepsOutside.writeWDigit (h : KeepsOutside wd wt s t) (k : Fin 128) (d : Digit) :
    KeepsOutside wd wt s (writeWDigit wd k d t) where
  narrow := h.narrow
  cmp := h.cmp
  wide q hd ht := by simpa [Slots.get_set_ne, hd.symm] using h.wide q hd ht

/-! ### `SETW Wd, x` -/

/-- The first `i` digits of `Wd` are those of `v`, and written. -/
def HoldsDigits (wd : WReg) (v : Wide) (i : Nat) (t : State) : Prop :=
  ∀ k : Fin 128, k.val < i → (t.w.get wd).get k = v.get k ∧ (t.wWritten.get wd).get k = true

theorem HoldsDigits.writeWDigit {v : Wide} {i : Fin 128} (h : HoldsDigits wd v i t) :
    HoldsDigits wd v (i + 1) (writeWDigit wd i (v.get i) t) := by
  intro k hk
  by_cases hki : i = k
  · subst hki; simp
  · simpa [Slots.get_set_ne, hki] using h k (by have := Fin.val_ne_of_ne hki; omega)

/-- The invariant of `SETW`'s loop. -/
def SetWInvariant (wd wt : WReg) (s : State) (v : Wide) (i : Nat) (t : State) : Prop :=
  KeepsOutside wd wt s t ∧ HoldsDigits wd v i t

theorem setWInvariant_ignoresStream {v : Wide} {i : Nat} : IgnoresStream (SetWInvariant wd wt s v i) :=
  fun _ _ _ ⟨⟨hnarrow, hcmp, hwide⟩, hdigits⟩ => ⟨⟨hnarrow, hcmp, hwide⟩, hdigits⟩

/-- `SETW Wd, x` gives the register the value and touches nothing outside (R72). -/
theorem leads_setW (x : Nat) :
    Leads (KeepsOutside wd wt s) (setW wd x) (HoldsTotal wd wt s (digitsOf 128 x)) := by
  have hloop : Leads (SetWInvariant wd wt s (digitsOf 128 x) 0) (setW wd x)
      (SetWInvariant wd wt s (digitsOf 128 x) 128) := by
    rw [setW, List.map_eq_flatMap]
    exact .loop fun i => .writeWDigit setWInvariant_ignoresStream setWInvariant_ignoresStream
      fun t ⟨hkeeps, hdigits⟩ => ⟨hkeeps.writeWDigit i _, hdigits.writeWDigit⟩
  exact hloop.consequence (fun t hkeeps => ⟨hkeeps, fun k hk => absurd hk (Nat.not_lt_zero _)⟩)
    fun t ⟨hkeeps, hdigits⟩ => ⟨hkeeps, Slots.ext_get fun k => (hdigits k k.isLt).1,
      (allWritten_iff _).2 fun k => (hdigits k k.isLt).2⟩

/-! ### The commands of a round -/

section Round

variable (hne : wt ≠ wd)
include hne

/-- `MULD Wt, Na, Nb[i]` puts the partial product in `Wt` (R115). -/
theorem leads_muld (hsrc : SourcesWritten (.mul wd na nb) s) (i : Fin 64) :
    Leads (HoldsTotal wd wt s total) [cmdWrite (.muld wt na nb i)]
      (HoldsPart wd wt s total (mulByDigit (s.n.get na) ((s.n.get nb).get i))) := by
  refine .cmdWrite holdsTotal_ignoresStream holdsPart_ignoresStream (Laws.decode_encode_muld wt na nb i) fun t h => ?_
  obtain ⟨hna, hnb⟩ := hsrc
  obtain ⟨hn, hmarks⟩ := h.narrow
  rw [← hmarks] at hna hnb
  rw [← hn]
  exact ⟨_, exec_muld_of_written t wt hna ((allWritten_iff _).1 hnb i), rfl, h.writeW hne _⟩

/-- `SHLD Wt, Wt, p` moves the partial product up (R122). -/
theorem leads_shld (p : Fin 128) : Leads (HoldsPart wd wt s total part) [cmdWrite (.shld wt wt p)]
    (HoldsPart wd wt s total (shiftSlots part p.val)) := by
  refine .cmdWrite holdsPart_ignoresStream holdsPart_ignoresStream (Laws.decode_encode_shld wt wt p) fun t h => ?_
  rw [← h.part]
  exact ⟨_, exec_shld_of_written t wt p h.partWritten, rfl, h.toHoldsTotal.writeW hne _⟩

/-- `ADDW Wd, Wd, Wt` accumulates the partial product (R98). -/
theorem leads_addw : Leads (HoldsPart wd wt s total part) [cmdWrite (.addw wd wd wt)]
    (fun t => HoldsPart wd wt s (addDigits total part).2 part t ∧ t.cb = (addDigits total part).1) := by
  refine .cmdWrite holdsPart_ignoresStream
    (fun t ps rs ⟨hpart, hcb⟩ => ⟨holdsPart_ignoresStream t ps rs hpart, hcb⟩)
    (Laws.decode_encode_addw wd wd wt) fun t h => ?_
  have hx := exec_addw_of_written t wd h.totalWritten h.partWritten
  rw [h.total, h.part] at hx
  exact ⟨_, hx, rfl, (h.writeW hne _).setCB _, rfl⟩

end Round

end Accesses

/-! ### All rounds -/

/-- After `i` rounds `Wd` has the running total of the schoolbook loop; after at least one, `Wt` has the last partial
product and the carry is 0 (R131). -/
structure AfterRounds (wd wt : WReg) (na nb : NReg) (s : State) (i : Nat) (t : State) : Prop where
  holds : HoldsTotal wd wt s (accumulate (s.n.get na) (s.n.get nb) ((List.finRange 64).take i) (zero 128)) t
  last : ∀ j : Fin 64, j.val + 1 = i → t.w.get wt = alignedProduct (s.n.get na) (s.n.get nb) j ∧ t.cb = 0

section Rounds

variable {wd wt : WReg} {na nb : NReg} {s : State} (hne : wt ≠ wd) (hsrc : SourcesWritten (.mul wd na nb) s)
include hne hsrc

/-- A round takes the running total on by one digit of the multiplier, and that loses nothing (R129, R131). -/
theorem leads_afterRounds (i : Fin 64) : Leads (AfterRounds wd wt na nb s i.val) (hostMulRound wd wt na nb i)
    (AfterRounds wd wt na nb s (i.val + 1)) := by
  refine .consequence ((leads_muld hne hsrc i).cons ((leads_shld hne ⟨63 - i.val, by omega⟩).cons (leads_addw hne)))
    (fun t h => h.holds) fun t ⟨hpart, hcb⟩ => ⟨?holds, ?last⟩
  case holds => exact accumulate_take_succ _ _ _ i ▸ hpart.toHoldsTotal
  case last =>
    intro j hj
    obtain rfl : j = i := Fin.ext (Nat.add_right_cancel hj)
    exact ⟨hpart.part, hcb.trans (addDigits_accumulate_carry _ _ _)⟩

/-- The whole program: `SETW` starts the total at zero, and the rounds take every digit of the multiplier (R131). -/
theorem leads_hostMultiply :
    Leads (KeepsOutside wd wt s) (hostMultiply wd wt na nb) (AfterRounds wd wt na nb s 64) := by
  have hstart : Leads (KeepsOutside wd wt s) (setW wd 0) (AfterRounds wd wt na nb s 0) :=
    (leads_setW 0).consequence (fun _ => id) fun t htotal =>
      ⟨digitsOf_zero 128 ▸ htotal, fun j hj => absurd hj (Nat.succ_ne_zero j)⟩
  exact hstart.append (.loop (leads_afterRounds hne hsrc))

end Rounds

/-- Settles O52: the program's loop invariant is the running total that `MUL` computes at once; its carries are 0 and
its last partial product needs no shift. -/
theorem mulEqualsHostDrivenProgram : Obligations.MulEqualsHostDrivenProgram := by
  intro wd wt na nb s rest hne hsrc hs
  obtain ⟨t, hrun, hpending, hholds, hlast⟩ := leads_hostMultiply hne hsrc s rest hs .refl
  obtain ⟨hwt, hcb⟩ := hlast 63 rfl
  obtain ⟨hna, hnb⟩ := hsrc
  refine ⟨t, _, hrun, exec_mul_of_written s wd hna hnb, ?product, ?lastPart, hcb, hholds.cmp, hholds.narrow, hpending,
    hholds.wide, rfl, Slots.get_set_ne _ _ hne.symm⟩
  case product =>
    rw [hholds.total, accumulate_take_all]
    exact (Slots.get_set_self _ _ _).symm
  case lastPart => rw [hwt, alignedProduct_last]

end Sys2Proof.Machine
end

section
/-! SUPPORT. Which accesses err, with which cause, and that the `Err` response is all they do (spec/60_exceptions.md
R141-R144). -/

namespace Sys2Proof.Machine

/-- The event is an access that R141 answers with this cause. -/
def ErrCause.CausedBy (c : ErrCause) (e : Event) : Prop :=
  match c with
  | .unmapped => ∃ a, Unmapped a ∧ (e = .read a ∨ ∃ v, e = .write a v)
  | .accessKind => e = .read addrCmd ∨ ∃ v, e = .write addrStatus v
  | .illegalCommand => ∃ w, e = .write addrCmd w ∧ ¬∃ i, decode w = .ok i

/-- A command leaves the host's stream to its `CMD` write (R69). -/
theorem exec_keepsStream {i : Instr} {s t : State} (h : exec i s = .next t) : KeepsStream s t := by
  cases i <;>
    simp only [exec_add, exec_addw, exec_sub, exec_cmp, exec_muld, exec_shld, exec_mul, Host.Outcome.next.injEq] at h <;>
    exact h ▸ ⟨rfl, rfl⟩

section Handle

variable {s t u : State} {e : Event} {c : ErrCause}

/-- An access with a cause to err responds `Err` and does nothing else. -/
theorem handle_of_causedBy (h : c.CausedBy e) (s : State) : handle e s = .next (respondErr c s) := by
  cases c with
  | unmapped =>
    obtain ⟨a, ha, rfl | ⟨v, rfl⟩⟩ := h
    · exact congrArg Host.Outcome.next (hostRead_unmapped s ha)
    · exact hostWrite_unmapped s ha v
  | accessKind =>
    obtain rfl | ⟨v, rfl⟩ := h
    · exact congrArg Host.Outcome.next (hostRead_addrCmd s)
    · exact hostWrite_addrStatus s v
  | illegalCommand =>
    obtain ⟨w, rfl, hw⟩ := h
    exact Laws.hostWrite_addrCmd_illegal hw s

theorem respond_adds_no_err {r : Response} (hr : r.isErr = false) (hu : u.responses = s.responses) :
    ¬∃ c, (respond r u).responses = s.responses ++ [.err c] := by
  rintro ⟨c, h⟩
  rw [respond_responses, hu, List.append_cancel_left_eq, List.singleton_inj] at h
  subst h
  cases hr

/-- A host read errs for one of R141's causes, or answers data. -/
theorem hostRead_cases (a : Addr) (s : State) : (∃ c : ErrCause, c.CausedBy (.read a)) ∨
    ∃ d u, hostRead a s = respond (.okData d) u ∧ KeepsStream s u := by
  cases hr : region a with
  | narrow r k => exact .inr ⟨(readNDigit r k s).1, (readNDigit r k s).2, by simp only [hostRead, hr], rfl, rfl⟩
  | wide r k => exact .inr ⟨(readWDigit r k s).1, (readWDigit r k s).2, by simp only [hostRead, hr], rfl, rfl⟩
  | status => exact .inr ⟨statusWord s, s, by simp only [hostRead, hr], rfl, rfl⟩
  | cmd => exact .inl ⟨.accessKind, .inl (congrArg _ (region_eq_cmd.1 hr))⟩
  | unmapped => exact .inl ⟨.unmapped, a, region_eq_unmapped.1 hr, .inl rfl⟩

/-- An event that adds an error is an access with one of R141's causes. -/
theorem exists_causedBy_of_err (ht : handle e s = .next t) (herr : ∃ c, t.responses = s.responses ++ [.err c]) :
    ∃ c : ErrCause, c.CausedBy e := by
  cases e with
  | read a =>
    obtain hc | ⟨d, u, hread, -, hu⟩ := hostRead_cases a s
    · exact hc
    · rw [handle, hread] at ht
      cases ht
      exact absurd herr (respond_adds_no_err rfl hu)
  | write a v =>
    obtain ⟨r, k, -, rfl⟩ | ⟨r, k, -, rfl⟩ | ⟨i, u, -, -, hu, rfl⟩ | ⟨rfl, hd, -⟩ | ⟨rfl, -⟩ | ⟨ha, -⟩ :=
      hostWrite_cases s ht
    · exact absurd herr (respond_adds_no_err rfl rfl)
    · exact absurd herr (respond_adds_no_err rfl rfl)
    · exact absurd herr (respond_adds_no_err rfl (exec_keepsStream hu).2)
    · exact ⟨.illegalCommand, v, rfl, by simp [hd]⟩
    · exact ⟨.accessKind, .inr ⟨v, rfl⟩⟩
    · exact ⟨.unmapped, a, region_eq_unmapped.1 ha, .inr ⟨v, rfl⟩⟩
  | reset =>
    cases ht
    obtain ⟨c, h⟩ := herr
    exact absurd (List.self_eq_append_right.1 h) (List.cons_ne_nil _ _)

/-- The error an event adds names its cause (R141): an access with a cause answers that one and no other. -/
theorem responses_eq_err_iff (ht : handle e s = .next t) :
    t.responses = s.responses ++ [.err c] ↔ c.CausedBy e := by
  constructor
  · intro herr
    obtain ⟨c', hc'⟩ := exists_causedBy_of_err ht ⟨c, herr⟩
    rw [handle_of_causedBy hc' s] at ht
    cases ht
    rw [respondErr_responses, List.append_cancel_left_eq, List.singleton_inj, Response.err.injEq] at herr
    exact herr ▸ hc'
  · intro hc
    rw [handle_of_causedBy hc s] at ht
    cases ht
    exact respondErr_responses s c

/-- An event that adds an error records nothing else (R144, R147). -/
theorem eq_respondErr_of_err (ht : handle e s = .next t) (herr : t.responses = s.responses ++ [.err c]) :
    t = respondErr c s :=
  Host.Outcome.next.inj (ht.symm.trans (handle_of_causedBy ((responses_eq_err_iff ht).1 herr) s))

end Handle

/-- Settles O43: the step is the event's, which adds an error exactly for the cause R141 gives, and is then that
response alone. -/
theorem errorResponses : Obligations.ErrorResponses := by
  refine ⟨rfl, rfl, rfl, fun s t e rest c hs ht => ?_⟩
  rw [step_cons s hs] at ht
  refine ⟨(responses_eq_err_iff ht).trans ?causes, eq_respondErr_of_err ht⟩
  case causes => cases c <;> exact .rfl

end Sys2Proof.Machine
end

section
/-! SUPPORT. Encoder and decoder undo each other, and the count of legal words (spec/30_encoding.md R61-R67, R71,
R73). -/

namespace Sys2Proof.Laws

/-! ### Decoding an encoded command -/

theorem decode_encode_add (rd ra rb : NReg) : decode (encode (.add rd ra rb)) = .ok (.add rd ra rb) :=
  decode_encode_of_row (r := ⟨.add, 0x01000000, 0xFFCCCFFF⟩) (FieldsLegal.add rd ra rb) (by decide) rfl
    (by simp [assemble, Instr.fields])

theorem decode_encode_sub (rd ra rb : NReg) : decode (encode (.sub rd ra rb)) = .ok (.sub rd ra rb) :=
  decode_encode_of_row (r := ⟨.sub, 0x03000000, 0xFFCCCFFF⟩) (FieldsLegal.sub rd ra rb) (by decide) rfl
    (by simp [assemble, Instr.fields])

theorem decode_encode_cmp (ra rb : NReg) : decode (encode (.cmp ra rb)) = .ok (.cmp ra rb) :=
  decode_encode_of_row (r := ⟨.cmp, 0x04000000, 0xFFFCCFFF⟩) (FieldsLegal.cmp ra rb) (by decide) rfl
    (by simp [assemble, Instr.fields])

theorem decode_encode_mul (rd : WReg) (ra rb : NReg) : decode (encode (.mul rd ra rb)) = .ok (.mul rd ra rb) :=
  decode_encode_of_row (r := ⟨.mul, 0x07000000, 0xFFCCCFFF⟩) (FieldsLegal.mul rd ra rb) (by decide) rfl
    (by simp [assemble, Instr.fields])

theorem decode_encode : ∀ i : Instr, decode (encode i) = .ok i
  | .add rd ra rb => decode_encode_add rd ra rb
  | .addw rd ra rb => decode_encode_addw rd ra rb
  | .sub rd ra rb => decode_encode_sub rd ra rb
  | .cmp ra rb => decode_encode_cmp ra rb
  | .muld rd ra rb k => decode_encode_muld rd ra rb k
  | .shld rd ra p => decode_encode_shld rd ra p
  | .mul rd ra rb => decode_encode_mul rd ra rb

/-- Settles O3: the row of each command's opcode selects its word and makes the command again of its fields. -/
theorem decodeEncodeIsIdentity : Obligations.DecodeEncodeIsIdentity := decode_encode

/-- Settles O2: each word is the encoding of the command it stands for. -/
theorem decodesWorkedExampleWords : Obligations.DecodesWorkedExampleWords :=
  ⟨decode_encode (.add 0 1 2), decode_encode (.addw 0 0 1), decode_encode (.sub 0 1 2), decode_encode (.cmp 1 2),
    decode_encode (.muld 0 1 2 63), decode_encode (.shld 1 1 1), decode_encode (.mul 0 1 2)⟩

/-! ### Encoding a decoded word -/

theorem encode_eq_wordOf_fields (i : Instr) : encode i = wordOf i.fields := by
  cases i with
  | add rd ra rb => exact (FieldsLegal.add rd ra rb).2
  | addw rd ra rb => exact (FieldsLegal.addw rd ra rb).2
  | sub rd ra rb => exact (FieldsLegal.sub rd ra rb).2
  | cmp ra rb => exact (FieldsLegal.cmp ra rb).2
  | muld rd ra rb k => exact (FieldsLegal.muld rd ra rb k).2
  | shld rd ra p => exact (FieldsLegal.shld rd ra p).2
  | mul rd ra rb => exact (FieldsLegal.mul rd ra rb).2

/-- A field within its range is that of the operand made of it (R64-R66). -/
theorem ofNat_regNumber {x : BitVec 4} (h : x ≤ 3) : BitVec.ofNat 4 (regNumber x).val = x := by
  revert x; decide

theorem ofNat_digitIndex {y : BitVec 8} (h : y ≤ 63) : BitVec.ofNat 8 (Fin.ofNat 64 y.toNat).val = y := by
  rw [Fin.val_ofNat]
  bv_omega

theorem ofNat_shiftCount {y : BitVec 8} (h : y ≤ 127) : BitVec.ofNat 8 (Fin.ofNat 128 y.toNat).val = y := by
  rw [Fin.val_ofNat]
  bv_omega

/-- What R67 asks of the fields of each format, apart from the opcode. -/
def InRange (f : CmdFields) : Format → Prop
  | .r3  => f.rd ≤ 3 ∧ f.ra ≤ 3 ∧ f.rb ≤ 3 ∧ f.z = 0 ∧ f.imm = 0
  | .r2c => f.rd = 0 ∧ f.ra ≤ 3 ∧ f.rb ≤ 3 ∧ f.z = 0 ∧ f.imm = 0
  | .r3k => f.rd ≤ 3 ∧ f.ra ≤ 3 ∧ f.rb ≤ 3 ∧ f.z = 0 ∧ f.imm ≤ 63
  | .r2p => f.rd ≤ 3 ∧ f.ra ≤ 3 ∧ f.rb = 0 ∧ f.z = 0 ∧ f.imm ≤ 127

theorem inRange_of_wellFormed {f : CmdFields} {fmt : Format} (h : f.format = some fmt) (hwf : f.wellFormed = true) :
    InRange f fmt := by
  simp only [CmdFields.wellFormed, CmdFields.opKnown, CmdFields.rdOk, CmdFields.raOk, CmdFields.rbOk, CmdFields.zOk,
    CmdFields.immOk, h, Option.isSome_some, Bool.true_and, Bool.and_eq_true, and_assoc] at hwf
  cases fmt <;> simpa only [InRange, decide_eq_true_eq] using hwf

/-- The command a row makes of well-formed fields with its opcode has those fields: each field is in the range of its
operand, or zero where the command has none. -/
theorem fields_assemble {r : Row} (hr : r ∈ opcodeMap) {f : CmdFields} (hop : f.op = (fieldsOf r.pattern).op)
    (hwf : f.wellFormed = true) : (assemble r.op f).fields = f := by
  obtain ⟨op, rd, ra, rb, z, imm⟩ := f
  obtain rfl : op = _ := hop
  simp only [opcodeMap, List.mem_cons, List.not_mem_nil, or_false] at hr
  obtain rfl | rfl | rfl | rfl | rfl | rfl | rfl := hr
  case inr.inr.inr.inl =>
    obtain ⟨rfl, ha, hb, rfl, rfl⟩ := inRange_of_wellFormed (fmt := .r2c) rfl hwf
    simp only [assemble, Instr.fields, ofNat_regNumber ha, ofNat_regNumber hb]
    rfl
  case inr.inr.inr.inr.inl =>
    obtain ⟨hd, ha, hb, rfl, hk⟩ := inRange_of_wellFormed (fmt := .r3k) rfl hwf
    simp only [assemble, Instr.fields, ofNat_regNumber hd, ofNat_regNumber ha, ofNat_regNumber hb, ofNat_digitIndex hk]
    rfl
  case inr.inr.inr.inr.inr.inl =>
    obtain ⟨hd, ha, rfl, rfl, hp⟩ := inRange_of_wellFormed (fmt := .r2p) rfl hwf
    simp only [assemble, Instr.fields, ofNat_regNumber hd, ofNat_regNumber ha, ofNat_shiftCount hp]
    rfl
  all_goals
    obtain ⟨hd, ha, hb, rfl, rfl⟩ := inRange_of_wellFormed (fmt := .r3) rfl hwf
    simp only [assemble, Instr.fields, ofNat_regNumber hd, ofNat_regNumber ha, ofNat_regNumber hb]
    rfl

theorem encode_of_decode {c : Word} {i : Instr} (h : decode c = .ok i) : encode i = c := by
  obtain ⟨r, hr, hc⟩ := (decodes_iff_selected c).1 ⟨i, h⟩
  have hop := op_of_selected hr hc
  rw [decode_of_selected hr hc, Except.ok.injEq] at h
  rw [← h, encode_eq_wordOf_fields, fields_assemble hr hop ((selected_iff_wellFormed hr hop).1 hc), wordOf_fieldsOf]

/-- Settles O4: a decoded command has the fields of its word, and the fields make up the word. -/
theorem decodedWordIsItsEncoding : Obligations.DecodedWordIsItsEncoding := fun _ _ => encode_of_decode

/-! ### The number of legal words -/

theorem decodes_iff_encodes (c : Word) : (∃ i, decode c = .ok i) ↔ ∃ i, encode i = c :=
  exists_congr fun i => ⟨encode_of_decode, fun h => h ▸ decode_encode i⟩

theorem encode_injective : Function.Injective encode := fun i j h =>
  Except.ok.inj ((decode_encode i).symm.trans (h ▸ decode_encode j))

/-- The operands of each command in turn, `ADD` to `MUL`. -/
abbrev Operands :=
  (NReg × NReg × NReg) ⊕ (WReg × WReg × WReg) ⊕ (NReg × NReg × NReg) ⊕ (NReg × NReg) ⊕
    (WReg × NReg × NReg × Fin 64) ⊕ (WReg × WReg × Fin 128) ⊕ (WReg × NReg × NReg)

/-- A command is one of seven operand tuples. -/
def operandsEquiv : Operands ≃ Instr where
  toFun
    | .inl (d, a, b) => .add d a b
    | .inr (.inl (d, a, b)) => .addw d a b
    | .inr (.inr (.inl (d, a, b))) => .sub d a b
    | .inr (.inr (.inr (.inl (a, b)))) => .cmp a b
    | .inr (.inr (.inr (.inr (.inl (d, a, b, k))))) => .muld d a b k
    | .inr (.inr (.inr (.inr (.inr (.inl (d, a, p)))))) => .shld d a p
    | .inr (.inr (.inr (.inr (.inr (.inr (d, a, b)))))) => .mul d a b
  invFun
    | .add d a b => .inl (d, a, b)
    | .addw d a b => .inr (.inl (d, a, b))
    | .sub d a b => .inr (.inr (.inl (d, a, b)))
    | .cmp a b => .inr (.inr (.inr (.inl (a, b))))
    | .muld d a b k => .inr (.inr (.inr (.inr (.inl (d, a, b, k)))))
    | .shld d a p => .inr (.inr (.inr (.inr (.inr (.inl (d, a, p))))))
    | .mul d a b => .inr (.inr (.inr (.inr (.inr (.inr (d, a, b))))))
  left_inv := by rintro (_ | _ | _ | _ | _ | _ | _) <;> rfl
  right_inv := by rintro (_ | _ | _ | _ | _ | _ | _) <;> rfl

/-- 64 words for each of four commands on three registers, 16 for `CMP`, 4096 for `MULD`, 2048 for `SHLD` (R73). -/
theorem card_operands : Fintype.card Operands = 6416 := by
  simp only [Fintype.card_sum, Fintype.card_prod, Fintype.card_fin, Nat.reduceMul, Nat.reduceAdd]

/-- The word of an operand tuple's command. -/
def operandsWord : Operands ↪ Word := operandsEquiv.toEmbedding.trans ⟨encode, encode_injective⟩

/-- Settles O6: the legal words are the encodings, one for each operand tuple of each command. -/
theorem legalWordCount : Obligations.LegalWordCount := by
  refine ⟨(Finset.univ.map operandsWord).toList, Finset.nodup_toList _, ?length, fun c => ?mem⟩
  case length => rw [Finset.length_toList, Finset.card_map, Finset.card_univ, card_operands]
  case mem =>
    rw [Finset.mem_toList, decodes_iff_encodes, operandsEquiv.surjective.exists, Finset.mem_map]
    simp [operandsWord]

end Sys2Proof.Laws
end

section
/-! SUPPORT. Every access ends in one response and no event stops the block: what follows for a step, for a run of the
host's stream and for the strict reading of errors (spec/20_memory.md R41, R48; spec/60_exceptions.md R140, R144). -/

namespace Sys2Proof.Machine

/-! ### Completion -/

theorem exists_exec_next (i : Instr) (s : State) : ∃ t, exec i s = .next t := by
  cases i <;> exact ⟨_, rfl⟩

theorem hostRead_eq_respond (a : Addr) (s : State) : ∃ r u, hostRead a s = respond r u ∧ KeepsStream s u := by
  obtain ⟨c, hc⟩ | ⟨d, u, hread, hu⟩ := hostRead_cases a s
  · exact ⟨.err c, s, Host.Outcome.next.inj (handle_of_causedBy hc s), rfl, rfl⟩
  · exact ⟨.okData d, u, hread, hu⟩

theorem execute_eq_respond (c : Word) (s : State) :
    ∃ r u, execute false c s = .next (respond r u) ∧ KeepsStream s u := by
  obtain ⟨i, hi⟩ | hc := decode_cases c
  · obtain ⟨u, hu⟩ := exists_exec_next i s
    exact ⟨.ok, u, by rw [execute_of_decode s false hi, hu]; rfl, exec_keepsStream hu⟩
  · exact ⟨.err .illegalCommand, s, execute_illegal s hc, rfl, rfl⟩

theorem hostWrite_eq_respond (a : Addr) (v : Digit) (s : State) :
    ∃ r u, hostWrite a v s = .next (respond r u) ∧ KeepsStream s u := by
  cases hr : region a with
  | narrow r k => exact ⟨.ok, writeNDigit r k v s, by simp only [hostWrite, hr], rfl, rfl⟩
  | wide r k => exact ⟨.ok, writeWDigit r k v s, by simp only [hostWrite, hr], rfl, rfl⟩
  | status => exact ⟨.err .accessKind, s, by simp only [hostWrite, hr, respondErr], rfl, rfl⟩
  | unmapped => exact ⟨.err .unmapped, s, by simp only [hostWrite, hr, respondErr], rfl, rfl⟩
  | cmd =>
    obtain rfl := region_eq_cmd.1 hr
    exact execute_eq_respond v s

/-- An access gets exactly one response, and takes no event of the host's stream (R41). -/
theorem handle_eq_respond {e : Event} (he : e ≠ .reset) (s : State) :
    ∃ r u, handle e s = .next (respond r u) ∧ KeepsStream s u := by
  cases e with
  | read a =>
    obtain ⟨r, u, hread, hu⟩ := hostRead_eq_respond a s
    exact ⟨r, u, congrArg Host.Outcome.next hread, hu⟩
  | write a v => exact hostWrite_eq_respond a v s
  | reset => exact absurd rfl he

/-! ### One step -/

section Step

variable {s t : State} {e : Event} {rest : List Event}

theorem step_reset (h : s.pending = .reset :: rest) : step s = .next (applyReset { s with pending := rest }) :=
  step_cons s h

theorem step_access (h : s.pending = e :: rest) (he : e ≠ .reset) :
    ∃ t r, step s = .next t ∧ t.pending = rest ∧ t.responses = s.responses ++ [r] := by
  obtain ⟨r, u, hu, hpending, hresponses⟩ := handle_eq_respond he { s with pending := rest }
  exact ⟨respond r u, r, (step_cons s h).trans hu, hpending, congrArg (· ++ [r]) hresponses⟩

/-- The step of an event takes it from the host's stream (R48). -/
theorem exists_step_next_of_cons (h : s.pending = e :: rest) : ∃ t, step s = .next t ∧ t.pending = rest := by
  by_cases he : e = .reset
  · subst he
    exact ⟨_, step_reset h, rfl⟩
  · obtain ⟨t, r, ht, hpending, -⟩ := step_access h he
    exact ⟨t, ht, hpending⟩

theorem exists_step_next (s : State) : ∃ t, step s = .next t := by
  cases hs : s.pending with
  | nil => exact ⟨s, step_nil s hs⟩
  | cons e rest =>
    obtain ⟨t, ht, -⟩ := exists_step_next_of_cons hs
    exact ⟨t, ht⟩

/-- A step adds no response, or one. -/
theorem responses_of_step (h : step s = .next t) :
    t.responses = s.responses ∨ ∃ r, t.responses = s.responses ++ [r] := by
  cases hs : s.pending with
  | nil =>
    rw [step_nil s hs] at h
    cases h
    exact .inl rfl
  | cons e rest =>
    by_cases he : e = .reset
    · subst he
      rw [step_reset hs] at h
      cases h
      exact .inl rfl
    · obtain ⟨t', r, ht, -, hresponses⟩ := step_access hs he
      rw [ht] at h
      cases h
      exact .inr ⟨r, hresponses⟩

end Step

/-- Settles O44: every command has a next state, and so has every event. -/
theorem stepNeverStops : Obligations.StepNeverStops := ⟨exists_exec_next, exists_step_next⟩

/-- Settles O45: with an event pending the step is the event's, which is an access with one response or a reset with
none. -/
theorem oneResponsePerAccess : Obligations.OneResponsePerAccess := by
  refine fun s t h => ⟨fun e rest hs => ?event, fun hs => ?idle⟩
  case idle => exact (Host.Outcome.next.inj ((step_nil s hs).symm.trans h)).symm
  case event =>
    by_cases he : e = .reset
    · subst he
      rw [step_reset hs] at h
      cases h
      exact ⟨rfl, fun hne => absurd rfl hne, fun _ => rfl⟩
    · obtain ⟨t', r, ht, hpending, hresponses⟩ := step_access hs he
      rw [ht] at h
      cases h
      exact ⟨hpending, fun _ => ⟨r, hresponses⟩, fun hreset => absurd hreset he⟩

/-- Settles O1: a legal word runs its command, which has a next state; the word that `withFetchWord` places is its 32
bits unchanged. -/
theorem stepRunsDecodedCommand : Obligations.StepRunsDecodedCommand := by
  refine fun s c i rest hc => ⟨fun hs => ?taken, ?placed⟩
  case taken =>
    obtain ⟨t, ht⟩ := exists_exec_next i { s with pending := rest }
    exact ⟨t, ht, step_cmd hs hc ht⟩
  case placed =>
    have hword : tableWord 32 c.toNat = c := by
      rw [tableWord, Nat.mod_eq_of_lt c.isLt, BitVec.ofNat_toNat, BitVec.setWidth_eq]
    obtain ⟨t, ht⟩ := exists_exec_next i s
    exact ⟨t, ht, step_cmd (congrArg (Event.write addrCmd · :: s.pending) hword) hc ht⟩

/-! ### Runs -/

/-- Every stream of events is taken to its end, one event a step. -/
theorem leads_of_events : ∀ es : List Event, Leads (fun _ => True) es (fun _ => True)
  | [] => .nil _
  | _ :: es => .cons (.of_step fun _ _ hs _ =>
      let ⟨t, ht, hpending⟩ := exists_step_next_of_cons hs
      ⟨t, ht, hpending, trivial⟩) (leads_of_events es)

/-- Settles O46: the run takes the whole of the host's stream. -/
theorem everyRunEnds : Obligations.EveryRunEnds := by
  intro s
  obtain ⟨t, ht, hpending, -⟩ := leads_of_events s.pending s [] (List.append_nil _).symm trivial
  exact ⟨t, ht, hpending⟩

/-! ### The strict reading -/

section Strict

variable {s t : State} (h : step s = .next t)
include h

theorem strictStep_of_err {c : ErrCause} (hc : t.responses = s.responses ++ [.err c]) :
    strictStep s = .fault (.errResponse c) := by
  simp only [strictStep, h, hc, List.drop_left]

theorem strictStep_of_no_err (hc : ¬∃ c, t.responses = s.responses ++ [.err c]) : strictStep s = .next t := by
  obtain hnone | ⟨r, hone⟩ := responses_of_step h
  · simp only [strictStep, h, hnone, List.drop_length]
  · cases r with
    | err c => exact absurd ⟨c, hone⟩ hc
    | ok => simp only [strictStep, h, hone, List.drop_left]
    | okData d => simp only [strictStep, h, hone, List.drop_left]

end Strict

/-- Settles O47: the response a step adds, if any, is what the strict reading looks at. -/
theorem strictStepFaultsOnErrors : Obligations.StrictStepFaultsOnErrors := by
  intro s t h
  by_cases hc : ∃ c, t.responses = s.responses ++ [.err c]
  · obtain ⟨c, hc⟩ := hc
    exact .inl ⟨c, hc, strictStep_of_err h hc⟩
  · exact .inr ⟨hc, strictStep_of_no_err h hc⟩

end Sys2Proof.Machine
end

section
/-! SUPPORT. What one step can do to the registers and flags, said once, and the writers of each of them
(spec/10_state.md R24-R27, R34). -/

namespace Sys2Proof.Machine

/-- The registers, their marks and the flags are as they were. -/
structure KeepsBlock (s t : State) : Prop where
  narrow : KeepsN s t
  wide : KeepsW s t
  cb : t.cb = s.cb
  cmp : t.cmp = s.cmp

/-- What a command does to the block: it writes its destination register and its flag, with some values. -/
def CommandEffect (i : Instr) (s t : State) : Prop :=
  match i with
  | .add rd _ _ | .sub rd _ _ => ∃ v c, KeepsBlock (setCB c (writeN rd v s)) t
  | .addw rd _ _ => ∃ v c, KeepsBlock (setCB c (writeW rd v s)) t
  | .cmp _ _ => ∃ o, KeepsBlock (setCMP o s) t
  | .muld rd _ _ _ | .shld rd _ _ | .mul rd _ _ => ∃ v, KeepsBlock (writeW rd v s) t

/-- What a step does to the block, by the event it takes. -/
inductive StepEffect (s t : State) : Prop
  /-- Nothing pending, a read, or an access that errs. -/
  | keeps (h : KeepsBlock s t)
  | reset (rest : List Event) (hs : s.pending = .reset :: rest) (h : KeepsBlock State.reset t)
  | writeN (r : NReg) (k : Fin 64) (v : Digit) (rest : List Event) (hs : s.pending = .write (addrN r k) v :: rest)
      (h : KeepsBlock (writeNDigit r k v s) t)
  | writeW (r : WReg) (k : Fin 128) (v : Digit) (rest : List Event) (hs : s.pending = .write (addrW r k) v :: rest)
      (h : KeepsBlock (writeWDigit r k v s) t)
  | command (c : Word) (i : Instr) (rest : List Event) (hs : s.pending = .write addrCmd c :: rest)
      (hd : decode c = .ok i) (h : CommandEffect i s t)

theorem KeepsBlock.refl (s : State) : KeepsBlock s s := ⟨⟨rfl, rfl⟩, ⟨rfl, rfl⟩, rfl, rfl⟩

section Effect

variable {i : Instr} {s t u : State} {rest : List Event}

theorem keepsBlock_hostRead (a : Addr) : KeepsBlock s (hostRead a { s with pending := rest }) := by
  unfold hostRead
  split <;> exact ⟨⟨rfl, rfl⟩, ⟨rfl, rfl⟩, rfl, rfl⟩

theorem commandEffect_of_exec (h : exec i { s with pending := rest } = .next u) (r : Response) :
    CommandEffect i s (respond r u) := by
  cases i with
  | add | addw | sub => cases h; exact ⟨_, _, ⟨rfl, rfl⟩, ⟨rfl, rfl⟩, rfl, rfl⟩
  | cmp | muld | shld | mul => cases h; exact ⟨_, ⟨rfl, rfl⟩, ⟨rfl, rfl⟩, rfl, rfl⟩

/-- Everything a step can do to the block. -/
theorem stepEffect_of_step (h : step s = .next t) : StepEffect s t := by
  obtain ⟨-, rfl⟩ | ⟨a, rest, hs, rfl⟩ | ⟨a, v, rest, hs, ht⟩ | ⟨rest, hs, rfl⟩ := step_cases s h
  · exact .keeps (.refl t)
  · exact .keeps (keepsBlock_hostRead a)
  · obtain ⟨r, k, rfl, rfl⟩ | ⟨r, k, rfl, rfl⟩ | ⟨i, u, rfl, hd, hu, rfl⟩ | ⟨-, -, rfl⟩ | ⟨-, rfl⟩ | ⟨-, rfl⟩ :=
      hostWrite_cases _ ht
    · exact .writeN r k v rest hs ⟨⟨rfl, rfl⟩, ⟨rfl, rfl⟩, rfl, rfl⟩
    · exact .writeW r k v rest hs ⟨⟨rfl, rfl⟩, ⟨rfl, rfl⟩, rfl, rfl⟩
    · exact .command v i rest hs hd (commandEffect_of_exec hu .ok)
    · exact .keeps ⟨⟨rfl, rfl⟩, ⟨rfl, rfl⟩, rfl, rfl⟩
    · exact .keeps ⟨⟨rfl, rfl⟩, ⟨rfl, rfl⟩, rfl, rfl⟩
    · exact .keeps ⟨⟨rfl, rfl⟩, ⟨rfl, rfl⟩, rfl, rfl⟩
  · exact .reset rest hs ⟨⟨rfl, rfl⟩, ⟨rfl, rfl⟩, rfl, rfl⟩

/-! ### The fields each command leaves unchanged -/

theorem CommandEffect.cb_eq (h : CommandEffect i s t) : t.cb = s.cb ∨
    (∃ rd ra rb, i = .add rd ra rb) ∨ (∃ rd ra rb, i = .addw rd ra rb) ∨ (∃ rd ra rb, i = .sub rd ra rb) := by
  cases i with
  | add rd ra rb => exact .inr (.inl ⟨rd, ra, rb, rfl⟩)
  | addw rd ra rb => exact .inr (.inr (.inl ⟨rd, ra, rb, rfl⟩))
  | sub rd ra rb => exact .inr (.inr (.inr ⟨rd, ra, rb, rfl⟩))
  | cmp | muld | shld | mul => exact let ⟨_, h⟩ := h; .inl h.cb

theorem CommandEffect.cmp_eq (h : CommandEffect i s t) :
    t.cmp = s.cmp ∨ ∃ ra rb, i = .cmp ra rb ∧ ∃ o : Cmp, t.cmp = o.enc := by
  cases i with
  | add | addw | sub => exact let ⟨_, _, h⟩ := h; .inl h.cmp
  | cmp ra rb => exact let ⟨o, h⟩ := h; .inr ⟨ra, rb, rfl, o, h.cmp⟩
  | muld | shld | mul => exact let ⟨_, h⟩ := h; .inl h.cmp

theorem CommandEffect.keepsN (h : CommandEffect i s t) :
    KeepsN s t ∨ (∃ rd ra rb, i = .add rd ra rb) ∨ (∃ rd ra rb, i = .sub rd ra rb) := by
  cases i with
  | add rd ra rb => exact .inr (.inl ⟨rd, ra, rb, rfl⟩)
  | sub rd ra rb => exact .inr (.inr ⟨rd, ra, rb, rfl⟩)
  | addw => exact let ⟨_, _, h⟩ := h; .inl h.narrow
  | cmp | muld | shld | mul => exact let ⟨_, h⟩ := h; .inl h.narrow

theorem CommandEffect.keepsW (h : CommandEffect i s t) :
    KeepsW s t ∨ (∃ rd ra rb, i = .addw rd ra rb) ∨ (∃ rd ra rb k, i = .muld rd ra rb k) ∨
      (∃ rd ra p, i = .shld rd ra p) ∨ (∃ rd ra rb, i = .mul rd ra rb) := by
  cases i with
  | add | sub => exact let ⟨_, _, h⟩ := h; .inl h.wide
  | cmp => exact let ⟨_, h⟩ := h; .inl h.wide
  | addw rd ra rb => exact .inr (.inl ⟨rd, ra, rb, rfl⟩)
  | muld rd ra rb k => exact .inr (.inr (.inl ⟨rd, ra, rb, k, rfl⟩))
  | shld rd ra p => exact .inr (.inr (.inr (.inl ⟨rd, ra, p, rfl⟩)))
  | mul rd ra rb => exact .inr (.inr (.inr (.inr ⟨rd, ra, rb, rfl⟩)))

end Effect

/-! ### The writers of each field -/

/-- Settles O28: every other event and every other command keeps `CB`. -/
theorem onlyAddAndSubWriteCB : Obligations.OnlyAddAndSubWriteCB := by
  intro s t h hne
  cases stepEffect_of_step h with
  | keeps h => exact absurd h.cb hne
  | reset rest hs => exact .inl ⟨rest, hs⟩
  | writeN r k v rest hs h => exact absurd h.cb hne
  | writeW r k v rest hs h => exact absurd h.cb hne
  | command c i rest hs hd h =>
    refine .inr ⟨c, rest, hs, ?_⟩
    obtain ⟨rd, ra, rb, rfl⟩ | ⟨rd, ra, rb, rfl⟩ | ⟨rd, ra, rb, rfl⟩ := h.cb_eq.resolve_left hne
    · exact .inl ⟨rd, ra, rb, hd⟩
    · exact .inr (.inl ⟨rd, ra, rb, hd⟩)
    · exact .inr (.inr ⟨rd, ra, rb, hd⟩)

/-- Settles O29: every other event and every other command keeps the field. -/
theorem onlyCmpWritesCMP : Obligations.OnlyCmpWritesCMP := by
  intro s t h hne
  cases stepEffect_of_step h with
  | keeps h => exact absurd h.cmp hne
  | reset rest hs => exact .inl ⟨rest, hs⟩
  | writeN r k v rest hs h => exact absurd h.cmp hne
  | writeW r k v rest hs h => exact absurd h.cmp hne
  | command c i rest hs hd h =>
    obtain ⟨ra, rb, rfl, -⟩ := h.cmp_eq.resolve_left hne
    exact .inr ⟨c, rest, ra, rb, hs, hd⟩

/-- Settles O30: every other event and every other command keeps the narrow file and its marks. -/
theorem writersOfTheNarrowFile : Obligations.WritersOfTheNarrowFile := by
  intro s t h hne
  cases stepEffect_of_step h with
  | keeps h => exact absurd h.narrow hne
  | reset rest hs => exact .inl ⟨rest, hs⟩
  | writeN r k v rest hs h => exact .inr (.inl ⟨r, k, v, rest, hs⟩)
  | writeW r k v rest hs h => exact absurd h.narrow hne
  | command c i rest hs hd h =>
    refine .inr (.inr ⟨c, rest, hs, ?_⟩)
    obtain ⟨rd, ra, rb, rfl⟩ | ⟨rd, ra, rb, rfl⟩ := h.keepsN.resolve_left hne
    · exact .inl ⟨rd, ra, rb, hd⟩
    · exact .inr ⟨rd, ra, rb, hd⟩

/-- Settles O31: every other event and every other command keeps the wide file and its marks. -/
theorem writersOfTheWideFile : Obligations.WritersOfTheWideFile := by
  intro s t h hne
  cases stepEffect_of_step h with
  | keeps h => exact absurd h.wide hne
  | reset rest hs => exact .inl ⟨rest, hs⟩
  | writeN r k v rest hs h => exact absurd h.wide hne
  | writeW r k v rest hs h => exact .inr (.inl ⟨r, k, v, rest, hs⟩)
  | command c i rest hs hd h =>
    refine .inr (.inr ⟨c, rest, hs, ?_⟩)
    obtain ⟨rd, ra, rb, rfl⟩ | ⟨rd, ra, rb, k, rfl⟩ | ⟨rd, ra, p, rfl⟩ | ⟨rd, ra, rb, rfl⟩ :=
      h.keepsW.resolve_left hne
    · exact .inl ⟨rd, ra, rb, hd⟩
    · exact .inr (.inl ⟨rd, ra, rb, k, hd⟩)
    · exact .inr (.inr (.inl ⟨rd, ra, p, hd⟩))
    · exact .inr (.inr (.inr ⟨rd, ra, rb, hd⟩))

/-! ### The codes of `CMP` -/

/-- A comparison produces no 0b10 (R27). -/
theorem enc_ne_two : ∀ o : Cmp, o.enc ≠ 0b10
  | .less => by decide
  | .equal => by decide
  | .greater => by decide

/-- Settles O35: the field is `0b00` at reset. -/
theorem resetCmpLegal : Obligations.ResetCmpLegal := by
  unfold Obligations.ResetCmpLegal
  decide

/-- Settles O34: a step that writes the field is a reset or writes the code of an outcome. -/
theorem stepKeepsCmpLegal : Obligations.StepKeepsCmpLegal := by
  intro s t hs h
  rw [State.CmpLegal]
  cases stepEffect_of_step h with
  | keeps h => exact h.cmp ▸ hs
  | reset rest hs h => exact h.cmp ▸ resetCmpLegal
  | writeN r k v rest _ h => exact h.cmp ▸ hs
  | writeW r k v rest _ h => exact h.cmp ▸ hs
  | command c i rest _ hd h =>
    obtain hcmp | ⟨ra, rb, -, o, hcmp⟩ := h.cmp_eq
    · exact hcmp ▸ hs
    · exact hcmp ▸ enc_ne_two o

/-! ### The written marks -/

section Marks

variable {m : Nat} {marks : Slots (Slots Bool m) 4} {r q : Fin 4} {k j : Fin m}

/-- Marking a whole register keeps every mark. -/
theorem get_set_fill_of_written (h : (marks.get q).get j = true) :
    ((marks.set r (Slots.fill m true)).get q).get j = true := by
  rw [Slots.get_set]
  split_ifs
  · exact Slots.get_fill true j
  · exact h

/-- Marking one digit keeps every mark. -/
theorem get_set_set_of_written (h : (marks.get q).get j = true) :
    ((marks.set r ((marks.get r).set k true)).get q).get j = true := by
  rw [Slots.get_set]
  split_ifs with hr
  · subst hr
    rw [Slots.get_set]
    split_ifs
    · rfl
    · exact h
  · exact h

end Marks

/-- The marks of both files are kept. -/
structure KeepsMarks (s t : State) : Prop where
  narrow : ∀ (r : NReg) (k : Fin 64), (s.nWritten.get r).get k = true → (t.nWritten.get r).get k = true
  wide : ∀ (r : WReg) (k : Fin 128), (s.wWritten.get r).get k = true → (t.wWritten.get r).get k = true

theorem CommandEffect.keepsMarks {i : Instr} {s t : State} (h : CommandEffect i s t) : KeepsMarks s t := by
  cases i with
  | add | sub =>
    obtain ⟨v, c, ⟨-, hn⟩, ⟨-, hw⟩, -, -⟩ := h
    exact ⟨fun r k hk => hn ▸ get_set_fill_of_written hk, fun r k hk => hw ▸ hk⟩
  | addw =>
    obtain ⟨v, c, ⟨-, hn⟩, ⟨-, hw⟩, -, -⟩ := h
    exact ⟨fun r k hk => hn ▸ hk, fun r k hk => hw ▸ get_set_fill_of_written hk⟩
  | cmp =>
    obtain ⟨o, ⟨-, hn⟩, ⟨-, hw⟩, -, -⟩ := h
    exact ⟨fun r k hk => hn ▸ hk, fun r k hk => hw ▸ hk⟩
  | muld | shld | mul =>
    obtain ⟨v, ⟨-, hn⟩, ⟨-, hw⟩, -, -⟩ := h
    exact ⟨fun r k hk => hn ▸ hk, fun r k hk => hw ▸ get_set_fill_of_written hk⟩

/-- Settles O32: every write marks digits as written and unmarks none. -/
theorem writtenDigitsStayWritten : Obligations.WrittenDigitsStayWritten := by
  intro s t h hreset
  suffices hmarks : KeepsMarks s t from ⟨hmarks.narrow, hmarks.wide⟩
  cases stepEffect_of_step h with
  | reset rest hs => exact absurd ⟨rest, hs⟩ hreset
  | command c i rest hs hd h => exact h.keepsMarks
  | keeps h =>
    obtain ⟨⟨-, hn⟩, ⟨-, hw⟩, -, -⟩ := h
    exact ⟨fun r k hk => hn ▸ hk, fun r k hk => hw ▸ hk⟩
  | writeN r k v rest hs h =>
    obtain ⟨⟨-, hn⟩, ⟨-, hw⟩, -, -⟩ := h
    exact ⟨fun r k hk => hn ▸ get_set_set_of_written hk, fun r k hk => hw ▸ hk⟩
  | writeW r k v rest hs h =>
    obtain ⟨⟨-, hn⟩, ⟨-, hw⟩, -, -⟩ := h
    exact ⟨fun r k hk => hn ▸ hk, fun r k hk => hw ▸ get_set_set_of_written hk⟩

end Sys2Proof.Machine
end

section
/-! SUPPORT. Two states that agree on every written digit stay so: each operation on the state keeps the relation, and
each read of the two answers the same (spec/10_state.md R34; spec/93_implementation_defined.md U1). -/

namespace Sys2Proof.Machine

/-! ### Registers that agree on their written digits -/

section Registers

variable {m : Nat} {marks : Slots Bool m} {v v' : Digits m}

/-- A read sees written digits only, so what is stored in the others does not reach it. -/
theorem seen_congr (draw : Nat) (h : ReadsAs marks v' v) : seen draw marks v = seen draw marks v' := by
  refine Slots.ext_get fun k => ?_
  rw [get_seen, get_seen]
  split_ifs with hk
  · exact h k hk
  · rfl

theorem readsAs_set (h : ReadsAs marks v' v) (k : Fin m) (d : Digit) :
    ReadsAs (marks.set k true) (v'.set k d) (v.set k d) := by
  intro j hj
  rw [Slots.get_set] at hj ⊢
  rw [Slots.get_set]
  split_ifs at hj ⊢ with hkj
  · rfl
  · exact h j hj

/-- Every register of a file agrees on its written digits with the same register of the other. -/
def FileAgrees (marks : Slots (Slots Bool m) 4) (file file' : Slots (Digits m) 4) : Prop :=
  ∀ r, ReadsAs (marks.get r) (file'.get r) (file.get r)

variable {fileMarks : Slots (Slots Bool m) 4} {file file' : Slots (Digits m) 4}

/-- Replacing one register by contents that agree keeps the files in agreement. -/
theorem FileAgrees.set (h : FileAgrees fileMarks file file') (r : Fin 4) (hr : ReadsAs marks v' v) :
    FileAgrees (fileMarks.set r marks) (file.set r v) (file'.set r v') := by
  intro q
  simp only [Slots.get_set]
  split_ifs
  · exact hr
  · exact h q

end Registers

/-! ### States -/

section States

variable {s s' : State}

theorem SameWritten.fileN (h : SameWritten s s') : FileAgrees s.nWritten s.n s'.n := h.n

theorem SameWritten.fileW (h : SameWritten s s') : FileAgrees s.wWritten s.w s'.w := h.w

theorem SameWritten.withPending (h : SameWritten s s') (rest : List Event) :
    SameWritten { s with pending := rest } { s' with pending := rest } :=
  { h with pending := rfl }

theorem SameWritten.respond (h : SameWritten s s') (r : Response) : SameWritten (respond r s) (respond r s') :=
  { h with responses := congrArg (· ++ [r]) h.responses }

theorem SameWritten.setCB (h : SameWritten s s') (c : BitVec 1) : SameWritten (setCB c s) (setCB c s') :=
  { h with cb := rfl }

theorem SameWritten.setCMP (h : SameWritten s s') (o : Cmp) : SameWritten (setCMP o s) (setCMP o s') :=
  { h with cmp := rfl }

theorem SameWritten.nextDraw (h : SameWritten s s') (b : Bool) : SameWritten (nextDraw b s) (nextDraw b s') :=
  { h with draws := congrArg (· + _) h.draws }

theorem SameWritten.writeN (h : SameWritten s s') (r : NReg) (v : Narrow) :
    SameWritten (writeN r v s) (writeN r v s') :=
  { h with
    nMarks := congrArg (·.set r (Slots.fill 64 true)) h.nMarks
    n := h.fileN.set r fun _ _ => rfl }

theorem SameWritten.writeW (h : SameWritten s s') (r : WReg) (v : Wide) :
    SameWritten (writeW r v s) (writeW r v s') :=
  { h with
    wMarks := congrArg (·.set r (Slots.fill 128 true)) h.wMarks
    w := h.fileW.set r fun _ _ => rfl }

theorem SameWritten.writeNDigit (h : SameWritten s s') (r : NReg) (k : Fin 64) (d : Digit) :
    SameWritten (writeNDigit r k d s) (writeNDigit r k d s') :=
  { h with
    nMarks := congrArg (fun marks => marks.set r ((marks.get r).set k true)) h.nMarks
    n := h.fileN.set r (readsAs_set (h.n r) k d) }

theorem SameWritten.writeWDigit (h : SameWritten s s') (r : WReg) (k : Fin 128) (d : Digit) :
    SameWritten (writeWDigit r k d s) (writeWDigit r k d s') :=
  { h with
    wMarks := congrArg (fun marks => marks.set r ((marks.get r).set k true)) h.wMarks
    w := h.fileW.set r (readsAs_set (h.w r) k d) }

theorem SameWritten.applyReset (h : SameWritten s s') : SameWritten (applyReset s) (applyReset s') where
  nMarks := rfl
  wMarks := rfl
  n _ _ _ := rfl
  w _ _ _ := rfl
  cb := rfl
  cmp := rfl
  draws := h.draws
  pending := h.pending
  responses := h.responses

/-! ### Reads -/

/-- The two reads answer the same and leave states that again agree. -/
def ReadsAgree {α : Type} (a a' : α × State) : Prop := a.1 = a'.1 ∧ SameWritten a.2 a'.2

theorem SameWritten.operandN (h : SameWritten s s') (r : NReg) : ReadsAgree (operandN r s) (operandN r s') := by
  unfold ReadsAgree Machine.operandN
  rw [← h.nMarks, ← h.draws]
  exact ⟨seen_congr _ (h.n r), h.nextDraw _⟩

theorem SameWritten.operandW (h : SameWritten s s') (r : WReg) : ReadsAgree (operandW r s) (operandW r s') := by
  unfold ReadsAgree Machine.operandW
  rw [← h.wMarks, ← h.draws]
  exact ⟨seen_congr _ (h.w r), h.nextDraw _⟩

theorem SameWritten.readNDigit (h : SameWritten s s') (r : NReg) (k : Fin 64) :
    ReadsAgree (readNDigit r k s) (readNDigit r k s') := by
  unfold ReadsAgree Machine.readNDigit
  rw [← h.nMarks, ← h.draws]
  refine ⟨?_, h.nextDraw _⟩
  dsimp only
  split_ifs with hk
  · exact h.n r k hk
  · rfl

theorem SameWritten.readWDigit (h : SameWritten s s') (r : WReg) (k : Fin 128) :
    ReadsAgree (readWDigit r k s) (readWDigit r k s') := by
  unfold ReadsAgree Machine.readWDigit
  rw [← h.wMarks, ← h.draws]
  refine ⟨?_, h.nextDraw _⟩
  dsimp only
  split_ifs with hk
  · exact h.w r k hk
  · rfl

/-! ### Commands, accesses and steps -/

/-- Both end in a next state, and the two states agree. -/
def OutcomesAgree (o o' : Host.Outcome State Fault Refusal) : Prop :=
  ∃ t t', o = .next t ∧ o' = .next t' ∧ SameWritten t t'

theorem SameWritten.exec (h : SameWritten s s') (i : Instr) : OutcomesAgree (exec i s) (exec i s') := by
  cases i with
  | add rd ra rb =>
    obtain ⟨ha, h⟩ := h.operandN ra
    obtain ⟨hb, h⟩ := h.operandN rb
    refine ⟨_, _, exec_add s rd ra rb, exec_add s' rd ra rb, ?_⟩
    rw [← ha, ← hb]
    exact (h.writeN rd _).setCB _
  | addw rd ra rb =>
    obtain ⟨ha, h⟩ := h.operandW ra
    obtain ⟨hb, h⟩ := h.operandW rb
    refine ⟨_, _, exec_addw s rd ra rb, exec_addw s' rd ra rb, ?_⟩
    rw [← ha, ← hb]
    exact (h.writeW rd _).setCB _
  | sub rd ra rb =>
    obtain ⟨ha, h⟩ := h.operandN ra
    obtain ⟨hb, h⟩ := h.operandN rb
    refine ⟨_, _, exec_sub s rd ra rb, exec_sub s' rd ra rb, ?_⟩
    rw [← ha, ← hb]
    exact (h.writeN rd _).setCB _
  | cmp ra rb =>
    obtain ⟨ha, h⟩ := h.operandN ra
    obtain ⟨hb, h⟩ := h.operandN rb
    refine ⟨_, _, exec_cmp s ra rb, exec_cmp s' ra rb, ?_⟩
    rw [← ha, ← hb]
    exact h.setCMP _
  | muld rd ra rb k =>
    obtain ⟨ha, h⟩ := h.operandN ra
    obtain ⟨hm, h⟩ := h.readNDigit rb k
    refine ⟨_, _, exec_muld s rd ra rb k, exec_muld s' rd ra rb k, ?_⟩
    rw [operandDigit, operandDigit, ← ha, ← hm]
    exact h.writeW rd _
  | shld rd ra p =>
    obtain ⟨ha, h⟩ := h.operandW ra
    refine ⟨_, _, exec_shld s rd ra p, exec_shld s' rd ra p, ?_⟩
    rw [← ha]
    exact h.writeW rd _
  | mul rd ra rb =>
    obtain ⟨ha, h⟩ := h.operandN ra
    obtain ⟨hb, h⟩ := h.operandN rb
    refine ⟨_, _, exec_mul s rd ra rb, exec_mul s' rd ra rb, ?_⟩
    rw [← ha, ← hb]
    exact h.writeW rd _

theorem SameWritten.hostRead (h : SameWritten s s') (a : Addr) : SameWritten (hostRead a s) (hostRead a s') := by
  unfold Machine.hostRead
  cases region a with
  | narrow r k =>
    obtain ⟨hd, h⟩ := h.readNDigit r k
    dsimp only
    rw [← hd]
    exact h.respond _
  | wide r k =>
    obtain ⟨hd, h⟩ := h.readWDigit r k
    dsimp only
    rw [← hd]
    exact h.respond _
  | status =>
    have hstatus : statusWord s = statusWord s' := by rw [statusWord, statusWord, h.cb, h.cmp]
    dsimp only
    rw [← hstatus]
    exact h.respond _
  | cmd => exact h.respond _
  | unmapped => exact h.respond _

theorem SameWritten.execute (h : SameWritten s s') (c : Word) :
    OutcomesAgree (execute false c s) (execute false c s') := by
  obtain ⟨i, hi⟩ | hc := decode_cases c
  · obtain ⟨t, t', ht, ht', hsame⟩ := h.exec i
    rw [execute_of_decode s false hi, execute_of_decode s' false hi, ht, ht']
    exact ⟨_, _, rfl, rfl, hsame.respond _⟩
  · exact ⟨_, _, execute_illegal s hc, execute_illegal s' hc, h.respond _⟩

theorem SameWritten.hostWrite (h : SameWritten s s') (a : Addr) (v : Digit) :
    OutcomesAgree (hostWrite a v s) (hostWrite a v s') := by
  unfold Machine.hostWrite
  cases region a with
  | narrow r k => exact ⟨_, _, rfl, rfl, (h.writeNDigit r k v).respond _⟩
  | wide r k => exact ⟨_, _, rfl, rfl, (h.writeWDigit r k v).respond _⟩
  | status => exact ⟨_, _, rfl, rfl, h.respond _⟩
  | cmd => exact h.execute v
  | unmapped => exact ⟨_, _, rfl, rfl, h.respond _⟩

theorem SameWritten.handle (h : SameWritten s s') (e : Event) : OutcomesAgree (handle e s) (handle e s') := by
  cases e with
  | read a => exact ⟨_, _, rfl, rfl, h.hostRead a⟩
  | write a v => exact h.hostWrite a v
  | reset => exact ⟨_, _, rfl, rfl, h.applyReset⟩

theorem SameWritten.step (h : SameWritten s s') : OutcomesAgree (step s) (step s') := by
  cases hs : s.pending with
  | nil => exact ⟨s, s', step_nil s hs, step_nil s' (h.pending ▸ hs), h⟩
  | cons e rest =>
    rw [step_cons s hs, step_cons s' (h.pending ▸ hs)]
    exact (h.withPending rest).handle e

end States

/-- Settles O33: every read of the two states answers the same and every write writes the same, so the relation is kept
by each operation a step is made of. -/
theorem unwrittenDigitsAreNeverObserved : Obligations.UnwrittenDigitsAreNeverObserved := by
  intro s s' t h ht
  obtain ⟨u, t', hu, ht', hsame⟩ := h.step
  exact ⟨t', ht', Host.Outcome.next.inj (hu.symm.trans ht) ▸ hsame⟩

end Sys2Proof.Machine
end

section
/-! SUPPORT. The commands and the two reserved ones: the values read, the value written, and what stays
(spec/30_encoding.md R68-R70; spec/10_state.md R24-R27, R33; R92, R97, R98, R107, R115, R122, R130, R132). -/

namespace Sys2Proof.Machine

/-! ### Two operands, one after the other -/

section Operands

variable (s : State)

/-- The second narrow operand is read after the first, which has changed no register (R70). -/
theorem readsAs_operandN_second (ra rb : NReg) :
    ReadsAs (s.nWritten.get rb) (s.n.get rb) (operandN rb (operandN ra s).2).1 :=
  readsAs_operandN (operandN ra s).2 rb

theorem readsAs_operandW_second (ra rb : WReg) :
    ReadsAs (s.wWritten.get rb) (s.w.get rb) (operandW rb (operandW ra s).2).1 :=
  readsAs_operandW (operandW ra s).2 rb

variable {s}

/-- Two narrow sources that have values are the operands, and no free value is drawn (R162). -/
theorem operandsN_of_written {ra rb : NReg} (ha : allWritten (s.nWritten.get ra) = true)
    (hb : allWritten (s.nWritten.get rb) = true) : (operandN ra s).1 = s.n.get ra ∧
      (operandN rb (operandN ra s).2).1 = s.n.get rb ∧ (operandN rb (operandN ra s).2).2.draws = s.draws := by
  rw [operandN_of_written s ha, operandN_of_written s hb]
  exact ⟨rfl, rfl, rfl⟩

theorem operandsW_of_written {ra rb : WReg} (ha : allWritten (s.wWritten.get ra) = true)
    (hb : allWritten (s.wWritten.get rb) = true) : (operandW ra s).1 = s.w.get ra ∧
      (operandW rb (operandW ra s).2).1 = s.w.get rb ∧ (operandW rb (operandW ra s).2).2.draws = s.draws := by
  rw [operandW_of_written s ha, operandW_of_written s hb]
  exact ⟨rfl, rfl, rfl⟩

end Operands

/-! ### A written destination -/

section Destination

variable {s t : State}

theorem keepsNExcept_of_set {r : NReg} {v : Narrow} {m : Slots Bool 64} (hn : t.n = s.n.set r v)
    (hm : t.nWritten = s.nWritten.set r m) : KeepsNExcept r s t := by
  intro q hq
  rw [hn, hm]
  exact ⟨Slots.get_set_ne _ _ hq.symm, Slots.get_set_ne _ _ hq.symm⟩

theorem keepsWExcept_of_set {r : WReg} {v : Wide} {m : Slots Bool 128} (hw : t.w = s.w.set r v)
    (hm : t.wWritten = s.wWritten.set r m) : KeepsWExcept r s t := by
  intro q hq
  rw [hw, hm]
  exact ⟨Slots.get_set_ne _ _ hq.symm, Slots.get_set_ne _ _ hq.symm⟩

theorem get_writeN (r : NReg) (v : Narrow) : (writeN r v s).n.get r = v := Slots.get_set_self _ _ _

theorem get_writeW (r : WReg) (v : Wide) : (writeW r v s).w.get r = v := Slots.get_set_self _ _ _

/-- A file whose register `r` has just been marked as a whole. -/
theorem allWritten_get_set_fill {m : Nat} (marks : Slots (Slots Bool m) 4) (r : Fin 4) :
    allWritten ((marks.set r (Slots.fill m true)).get r) = true := by
  rw [Slots.get_set_self, allWritten_fill]

end Destination

/-! ### The seven commands -/

/-- Settles O20: the destination takes the sum of the operands and `CB` its carry (R96). -/
theorem addCommand : Obligations.AddCommand := by
  refine fun rd ra rb s => ⟨_, _, _, exec_add s rd ra rb, readsAs_operandN s ra, readsAs_operandN_second s ra rb,
    ?sum, allWritten_get_set_fill _ rd, keepsNExcept_of_set rfl rfl, ⟨rfl, rfl⟩, rfl, ⟨rfl, rfl⟩,
    fun ⟨ha, hb⟩ => operandsN_of_written ha hb⟩
  case sum => rw [setCB_n, setCB_cb, get_writeN, ← val_addDigits_add]

/-- Settles O21: as for `ADD`, over the wide file. -/
theorem addwCommand : Obligations.AddwCommand := by
  refine fun rd ra rb s => ⟨_, _, _, exec_addw s rd ra rb, readsAs_operandW s ra, readsAs_operandW_second s ra rb,
    ?sum, allWritten_get_set_fill _ rd, keepsWExcept_of_set rfl rfl, ⟨rfl, rfl⟩, rfl, ⟨rfl, rfl⟩,
    fun ⟨ha, hb⟩ => operandsW_of_written ha hb⟩
  case sum => rw [setCB_w, setCB_cb, get_writeW, ← val_addDigits_add]

/-- Settles O22: the destination takes the wrapped difference of the operands and `CB` its borrow (R106). -/
theorem subCommand : Obligations.SubCommand := by
  refine fun rd ra rb s => ⟨_, _, _, exec_sub s rd ra rb, readsAs_operandN s ra, readsAs_operandN_second s ra rb,
    ?difference, subDigits_borrow_iff _ _, allWritten_get_set_fill _ rd, keepsNExcept_of_set rfl rfl, ⟨rfl, rfl⟩,
    rfl, ⟨rfl, rfl⟩, fun ⟨ha, hb⟩ => operandsN_of_written ha hb⟩
  case difference => rw [setCB_n, setCB_cb, get_writeN, val_subDigits_add]

theorem enc_compareDigits {n : Nat} (a b : Digits n) :
    (compareDigits a b).enc = if val a < val b then 0b11 else if val a = val b then 0b00 else 0b01 := by
  rw [compareDigits_eq]
  split_ifs <;> rfl

/-- Settles O23: the field takes the code of the order of the operands, and nothing else is written. -/
theorem cmpCommand : Obligations.CmpCommand :=
  fun ra rb s => ⟨_, _, _, exec_cmp s ra rb, readsAs_operandN s ra, readsAs_operandN_second s ra rb,
    enc_compareDigits _ _, ⟨rfl, rfl⟩, ⟨rfl, rfl⟩, rfl, ⟨rfl, rfl⟩, fun ⟨ha, hb⟩ => operandsN_of_written ha hb⟩

/-- Settles O24: the destination takes the exact product of the multiplicand and the digit read (R116). -/
theorem muldCommand : Obligations.MuldCommand := by
  refine fun rd ra rb k s => ⟨_, _, (operandDigit rb k (operandN ra s).2).1, exec_muld s rd ra rb k,
    readsAs_operandN s ra, fun hm => ?digit, ?product, fun j hj => ?high, allWritten_get_set_fill _ rd,
    keepsWExcept_of_set rfl rfl, ⟨rfl, rfl⟩, rfl, rfl, ⟨rfl, rfl⟩, fun ⟨ha, hm⟩ => ?written⟩
  case digit => exact congrArg Prod.fst (operandDigit_of_written (operandN ra s).2 hm)
  case product => rw [get_writeW, val_mulByDigit]
  case high => rw [get_writeW, get_mulByDigit_of_lt _ _ hj]
  case written =>
    rw [operandN_of_written s ha, operandDigit_of_written s hm]
    exact ⟨rfl, rfl⟩

/-- Settles O25: the destination takes the source's digits, each `p` slots up (R120). -/
theorem shldCommand : Obligations.ShldCommand := by
  refine fun rd ra p s => ⟨_, _, exec_shld s rd ra p, readsAs_operandW s ra, fun i => ?digit,
    allWritten_get_set_fill _ rd, keepsWExcept_of_set rfl rfl, ⟨rfl, rfl⟩, rfl, rfl, ⟨rfl, rfl⟩, fun ha => ?written⟩
  case digit =>
    rw [get_writeW]
    split_ifs with hi
    · exact get_shiftSlots_of_lt _ (Nat.lt_succ_of_le hi)
    · exact get_shiftSlots_of_le _ (Nat.lt_of_not_le hi)
  case written =>
    rw [operandW_of_written s ha]
    exact ⟨rfl, rfl⟩

/-- Settles O26: the destination takes the exact product of the operands (R129). -/
theorem mulCommand : Obligations.MulCommand := by
  refine fun rd ra rb s => ⟨_, _, _, exec_mul s rd ra rb, readsAs_operandN s ra, readsAs_operandN_second s ra rb,
    ?product, allWritten_get_set_fill _ rd, keepsWExcept_of_set rfl rfl, ⟨rfl, rfl⟩, rfl, rfl, ⟨rfl, rfl⟩,
    fun ⟨ha, hb⟩ => operandsN_of_written ha hb⟩
  case product => rw [get_writeW, val_multiply]

/-- Settles O27: with its sources written a command is a function of their contents, which are the same. -/
theorem resultDependsOnSourcesOnly : Obligations.ResultDependsOnSourcesOnly := by
  intro i s s' h
  cases i with
  | add rd ra rb =>
    obtain ⟨⟨ha, hb⟩, ⟨ha', hb'⟩, hra, hrb⟩ := h
    refine ⟨_, _, exec_add_of_written s rd ha hb, exec_add_of_written s' rd ha' hb', ?_⟩
    rw [hra, hrb]
    exact ⟨(get_writeN rd _).trans (get_writeN rd _).symm, rfl⟩
  | addw rd ra rb =>
    obtain ⟨⟨ha, hb⟩, ⟨ha', hb'⟩, hra, hrb⟩ := h
    refine ⟨_, _, exec_addw_of_written s rd ha hb, exec_addw_of_written s' rd ha' hb', ?_⟩
    rw [hra, hrb]
    exact ⟨(get_writeW rd _).trans (get_writeW rd _).symm, rfl⟩
  | sub rd ra rb =>
    obtain ⟨⟨ha, hb⟩, ⟨ha', hb'⟩, hra, hrb⟩ := h
    refine ⟨_, _, exec_sub_of_written s rd ha hb, exec_sub_of_written s' rd ha' hb', ?_⟩
    rw [hra, hrb]
    exact ⟨(get_writeN rd _).trans (get_writeN rd _).symm, rfl⟩
  | cmp ra rb =>
    obtain ⟨⟨ha, hb⟩, ⟨ha', hb'⟩, hra, hrb⟩ := h
    refine ⟨_, _, exec_cmp_of_written s ha hb, exec_cmp_of_written s' ha' hb', ?_⟩
    rw [hra, hrb]
    rfl
  | muld rd ra rb k =>
    obtain ⟨⟨ha, hb⟩, ⟨ha', hb'⟩, hra, hrb⟩ := h
    refine ⟨_, _, exec_muld_of_written s rd ha hb, exec_muld_of_written s' rd ha' hb', ?_⟩
    rw [hra, hrb]
    exact (get_writeW rd _).trans (get_writeW rd _).symm
  | shld rd ra p =>
    obtain ⟨ha, ha', hra⟩ := h
    refine ⟨_, _, exec_shld_of_written s rd p ha, exec_shld_of_written s' rd p ha', ?_⟩
    rw [hra]
    exact (get_writeW rd _).trans (get_writeW rd _).symm
  | mul rd ra rb =>
    obtain ⟨⟨ha, hb⟩, ⟨ha', hb'⟩, hra, hrb⟩ := h
    refine ⟨_, _, exec_mul_of_written s rd ha hb, exec_mul_of_written s' rd ha' hb', ?_⟩
    rw [hra, hrb]
    exact (get_writeW rd _).trans (get_writeW rd _).symm

/-! ### Distributivity -/

/-- Settles O19: both sides are exact, and a sum without carry is the sum of the magnitudes. -/
theorem multiplyDistributes : Obligations.MultiplyDistributes := by
  intro a b c hcarry
  have hcarry' : (addDigits b c).1.toNat = 0 := congrArg BitVec.toNat hcarry
  have hsum := val_addDigits_add b c
  rw [hcarry', Nat.zero_mul, Nat.add_zero] at hsum
  exact addDigits_eq_of_add_eq _ _ (by rw [val_multiply, val_multiply, val_multiply, hsum, Nat.mul_add])

/-! ### The reserved commands -/

/-- R68's word of `SUBW Wd, Wa, Wb`. -/
def subwWord (rd ra rb : WReg) : Word :=
  .ofNat 32 (0x08000000 + rd.val * 2 ^ 20 + ra.val * 2 ^ 16 + rb.val * 2 ^ 12)

/-- R68's word of `CMPW Wa, Wb`. -/
def cmpwWord (ra rb : WReg) : Word := .ofNat 32 (0x09000000 + ra.val * 2 ^ 16 + rb.val * 2 ^ 12)

/-- The reserved words are no command's, and are what `HAS_SUBW` makes of them. -/
theorem decode_subwWord (rd ra rb : WReg) : decode (subwWord rd ra rb) = .error .illegalCommand ∧
    decodeReserved (subwWord rd ra rb) = some (.subw rd ra rb) := by
  revert rd ra rb; decide +kernel

theorem decode_cmpwWord (ra rb : WReg) : decode (cmpwWord ra rb) = .error .illegalCommand ∧
    decodeReserved (cmpwWord ra rb) = some (.cmpw ra rb) := by
  revert ra rb; decide +kernel

/-- With `HAS_SUBW` true a reserved word runs its command (R68). -/
theorem execute_reserved {c : Word} {r : Reserved} (hc : decode c = .error .illegalCommand)
    (hr : decodeReserved c = some r) (s : State) : execute true c s = respondOk (execReserved r s) := by
  simp only [execute, hc, hr]

/-- Settles O48: no command has a reserved word; with `HAS_SUBW` true the two words run the wide subtractor and the
wide comparator on the values that the two reads give. -/
theorem reservedOpcodes : Obligations.ReservedOpcodes := by
  intro rd ra rb s
  obtain ⟨hsubw, hsubw'⟩ := decode_subwWord rd ra rb
  obtain ⟨hcmpw, hcmpw'⟩ := decode_cmpwWord ra rb
  refine ⟨rfl, execute_illegal s hsubw, execute_illegal s hcmpw, _, _, _, _, readsAs_operandW s ra,
    readsAs_operandW_second s ra rb, execute_reserved hsubw hsubw' s, execute_reserved hcmpw hcmpw' s, get_writeW rd _,
    rfl, keepsWExcept_of_set rfl rfl, ⟨rfl, rfl⟩, rfl, ⟨rfl, rfl⟩, rfl, ⟨rfl, rfl⟩, ⟨rfl, rfl⟩, rfl, rfl, rfl⟩

end Sys2Proof.Machine
end

section
/-! SUPPORT. The address map as numbers, what a host read answers before and after a host write, and the reset state
(spec/20_memory.md R42, R46-R48; spec/10_state.md R34; spec/70_reset_and_hazards.md R160). -/

namespace Sys2Proof.Machine

/-! ### The address map -/

theorem toNat_addrN (r : NReg) (k : Fin 64) : (addrN r k).toNat = 0x000 + 0x40 * r.val + k.val := by
  rw [addrN, BitVec.toNat_ofNat]
  omega

theorem toNat_addrW (r : WReg) (k : Fin 128) : (addrW r k).toNat = 0x200 + 0x80 * r.val + k.val := by
  rw [addrW, BitVec.toNat_ofNat]
  omega

/-- Settles O39: each region holds the addresses that its formula gives, and the unmapped ones are the rest. -/
theorem addressMap : Obligations.AddressMap := by
  refine ⟨fun r k a => ?narrow, fun r k a => ?wide, fun a => region_eq_cmd.symm, fun a => region_eq_status.symm,
    fun a => region_eq_unmapped.symm⟩
  case narrow => rw [region_eq_narrow, ← BitVec.toNat_inj, toNat_addrN]
  case wide => rw [region_eq_wide, ← BitVec.toNat_inj, toNat_addrW]

/-- An address of R42's two digit ranges is a digit's. -/
theorem eq_addrN_or_eq_addrW {a : Addr} (h : a ≤ 0x0FF ∨ (0x200 ≤ a ∧ a ≤ 0x3FF)) :
    (∃ r k, a = addrN r k) ∨ ∃ r k, a = addrW r k := by
  obtain hN | hW := h
  · exact .inl ⟨_, _, eq_addrN_of_le hN⟩
  · exact .inr ⟨_, _, eq_addrW_of_mem_range hW⟩

/-! ### Reads -/

section Reads

variable (s : State)

/-- A host read of a digit, written or not. -/
theorem hostRead_addrN_eq (r : NReg) (k : Fin 64) :
    hostRead (addrN r k) s = respond (.okData (readNDigit r k s).1) (readNDigit r k s).2 := by
  simp only [hostRead, region_addrN]

theorem hostRead_addrW_eq (r : WReg) (k : Fin 128) :
    hostRead (addrW r k) s = respond (.okData (readWDigit r k s).1) (readWDigit r k s).2 := by
  simp only [hostRead, region_addrW]

/-- What a host read answers, by what the address names (R54). -/
def portAnswer (s : State) : Region → Response
  | .narrow r k => .okData (readNDigit r k s).1
  | .wide r k => .okData (readWDigit r k s).1
  | .status => .okData (statusWord s)
  | .cmd => .err .accessKind
  | .unmapped => .err .unmapped

theorem answer_eq_portAnswer (a : Addr) : answer a s = some (portAnswer s (region a)) := by
  unfold answer hostRead
  cases region a <;> exact List.getLast?_concat

theorem portAnswer_respond (r : Response) (x : Region) : portAnswer (respond r s) x = portAnswer s x := by
  cases x <;> rfl

end Reads

/-- Settles O41: the read of a digit changes the count of free values at most. -/
theorem everyDigitReadAnswersData : Obligations.EveryDigitReadAnswersData := by
  intro a s ha
  obtain ⟨r, k, rfl⟩ | ⟨r, k, rfl⟩ := eq_addrN_or_eq_addrW ha
  · exact ⟨_, _, hostRead_addrN_eq s r k⟩
  · exact ⟨_, _, hostRead_addrW_eq s r k⟩

/-! ### A read after a write -/

/-- Setting one slot of one register leaves every other slot of the file. -/
theorem get_set_set_of_ne {α : Type} {m : Nat} {file : Slots (Slots α m) 4} {r q : Fin 4} {k j : Fin m} {x : α}
    (h : ¬(q = r ∧ j = k)) : ((file.set r ((file.get r).set k x)).get q).get j = (file.get q).get j := by
  obtain rfl | hq := eq_or_ne q r
  · rw [Slots.get_set_self, Slots.get_set_ne _ _ fun hj => h ⟨rfl, hj.symm⟩]
  · rw [Slots.get_set_ne _ _ hq.symm]

section ReadAfterWrite

variable (s : State) (v : Digit)

theorem readNDigit_writeNDigit_self (r : NReg) (k : Fin 64) : (readNDigit r k (writeNDigit r k v s)).1 = v := by
  simp [readNDigit]

theorem readWDigit_writeWDigit_self (r : WReg) (k : Fin 128) : (readWDigit r k (writeWDigit r k v s)).1 = v := by
  simp [readWDigit]

theorem readNDigit_writeNDigit_of_ne {r q : NReg} {k j : Fin 64} (h : ¬(q = r ∧ j = k)) :
    (readNDigit q j (writeNDigit r k v s)).1 = (readNDigit q j s).1 := by
  simp only [readNDigit, writeNDigit_n, writeNDigit_nWritten, writeNDigit_draws, get_set_set_of_ne h]

theorem readWDigit_writeWDigit_of_ne {r q : WReg} {k j : Fin 128} (h : ¬(q = r ∧ j = k)) :
    (readWDigit q j (writeWDigit r k v s)).1 = (readWDigit q j s).1 := by
  simp only [readWDigit, writeWDigit_w, writeWDigit_wWritten, writeWDigit_draws, get_set_set_of_ne h]

/-- A write of a narrow digit changes the answer of no other word of the port (R47). -/
theorem portAnswer_writeNDigit_of_ne {r : NReg} {k : Fin 64} {x : Region} (h : x ≠ .narrow r k) :
    portAnswer (writeNDigit r k v s) x = portAnswer s x := by
  cases x with
  | narrow q j =>
    have hne : ¬(q = r ∧ j = k) := by rintro ⟨rfl, rfl⟩; exact h rfl
    exact congrArg _ (readNDigit_writeNDigit_of_ne s v hne)
  | wide q j => rfl
  | status => rfl
  | cmd => rfl
  | unmapped => rfl

theorem portAnswer_writeWDigit_of_ne {r : WReg} {k : Fin 128} {x : Region} (h : x ≠ .wide r k) :
    portAnswer (writeWDigit r k v s) x = portAnswer s x := by
  cases x with
  | wide q j =>
    have hne : ¬(q = r ∧ j = k) := by rintro ⟨rfl, rfl⟩; exact h rfl
    exact congrArg _ (readWDigit_writeWDigit_of_ne s v hne)
  | narrow q j => rfl
  | status => rfl
  | cmd => rfl
  | unmapped => rfl

end ReadAfterWrite

/-- Settles O42: the answers are read off the regions, of which the write has changed one. -/
theorem hostWriteThenRead : Obligations.HostWriteThenRead := by
  intro a b v s ha
  simp only [answer_eq_portAnswer, Option.some.injEq]
  obtain ⟨r, k, rfl⟩ | ⟨r, k, rfl⟩ := eq_addrN_or_eq_addrW ha
  · refine ⟨_, hostWrite_addrN s r k v, ?_, fun hb => ?_, rfl, rfl⟩
    · rw [region_addrN]
      exact congrArg _ (readNDigit_writeNDigit_self s v r k)
    · rw [portAnswer_respond, portAnswer_writeNDigit_of_ne s v (mt region_eq_narrow.1 hb)]
  · refine ⟨_, hostWrite_addrW s r k v, ?_, fun hb => ?_, rfl, rfl⟩
    · rw [region_addrW]
      exact congrArg _ (readWDigit_writeWDigit_self s v r k)
    · rw [portAnswer_respond, portAnswer_writeWDigit_of_ne s v (mt region_eq_wide.1 hb)]

/-! ### Reset -/

theorem nWritten_reset (r : NReg) (k : Fin 64) : (State.reset.nWritten.get r).get k = false := by
  simp [State.reset]

theorem wWritten_reset (r : WReg) (k : Fin 128) : (State.reset.wWritten.get r).get k = false := by
  simp [State.reset]

/-- Settles O36: the flags of the reset state are 0 and its marks are all false. -/
theorem resetStateOfFlagsAndDigits : Obligations.ResetStateOfFlagsAndDigits :=
  ⟨rfl, rfl, statusWord_reset, nWritten_reset, wWritten_reset⟩

/-- Settles O37: the event gives the block the flags and the marks of the reset state, and leaves the host's stream. -/
theorem resetEventRestoresResetState : Obligations.ResetEventRestoresResetState :=
  fun _ _ h => ⟨_, step_reset h, rfl, rfl, statusWord_reset, nWritten_reset, wWritten_reset, rfl, rfl⟩

end Sys2Proof.Machine
end

section
/-! SUPPORT. The directives access by access: what a run of `SETN`, `SETW`, `GETN` or `GETW` ends with
(spec/30_encoding.md R72; spec/20_memory.md R43, R47). -/

namespace Sys2Proof.Machine

/-! ### Filling an array slot by slot -/

/-- The first `i` slots of `u` hold what those of `v` hold. -/
def AgreesBelow {α : Type} {n : Nat} (i : Nat) (u v : Slots α n) : Prop :=
  ∀ k : Fin n, k.val < i → u.get k = v.get k

section Filling

variable {α : Type} {n : Nat} {u v : Slots α n}

theorem agreesBelow_zero : AgreesBelow 0 u v := fun _ hk => absurd hk (Nat.not_lt_zero _)

theorem AgreesBelow.set_succ {i : Fin n} (h : AgreesBelow i.val u v) :
    AgreesBelow (i.val + 1) (u.set i (v.get i)) v := by
  intro k hk
  by_cases hki : i = k
  · rw [hki, Slots.get_set_self]
  · rw [Slots.get_set_ne _ _ hki]
    exact h k (by have := Fin.val_ne_of_ne hki; omega)

theorem AgreesBelow.eq (h : AgreesBelow n u v) : u = v := Slots.ext_get fun k => h k k.isLt

end Filling

/-! ### Writing a register digit by digit -/

section Writes

variable {n : Nat} {put : Digits n → Slots Bool n → State} {v : Digits n} {addr : Fin n → Addr}

/-- After `i` writes: the register, which `put` places in the block, has its first `i` digits from `v` and marked
written, and each write has answered `Ok`. -/
def AfterWrites (put : Digits n → Slots Bool n → State) (v : Digits n) (responses : List Response) (i : Nat)
    (t : State) : Prop :=
  ∃ u m pending, AgreesBelow i u v ∧ AgreesBelow i m (Slots.fill n true) ∧
    t = { put u m with pending := pending, responses := responses ++ List.replicate i .ok }

/-- Writing the digits of `v` in index order writes the whole register, and changes nothing else (R47, R72). -/
theorem run_writes {s : State} {rest : List Event}
    (hs : s.pending = (List.finRange n).map (fun k => .write (addr k) (v.get k)) ++ rest)
    (hput : ∃ u m, s = { put u m with pending := s.pending, responses := s.responses })
    (hwrite : ∀ k u m ps rs, hostWrite (addr k) (v.get k) { put u m with pending := ps, responses := rs } =
      .next (respond .ok { put (u.set k (v.get k)) (m.set k true) with pending := ps, responses := rs })) :
    run n s = .next { put v (Slots.fill n true) with
      pending := rest, responses := s.responses ++ List.replicate n .ok } := by
  have hround : ∀ i : Fin n, Leads (AfterWrites put v s.responses i.val) [.write (addr i) (v.get i)]
      (AfterWrites put v s.responses (i.val + 1)) := by
    refine fun i => .of_step fun t rest ht ⟨u, m, ps, hu, hm, heq⟩ => ?_
    subst heq
    refine ⟨_, (step_cons _ ht).trans (hwrite i u m rest _), rfl, u.set i (v.get i), m.set i true, rest, hu.set_succ,
      ?marks, ?state⟩
    case marks => simpa using hm.set_succ
    case state => rw [List.replicate_succ', ← List.append_assoc]; rfl
  rw [List.map_eq_flatMap] at hs
  obtain ⟨u, m, hput⟩ := hput
  obtain ⟨t, ht, hpending, u, m, ps, hu, hm, rfl⟩ := Leads.loop hround s rest hs
    ⟨u, m, s.pending, agreesBelow_zero, agreesBelow_zero, by simpa using hput⟩
  obtain rfl : ps = rest := hpending
  rw [hu.eq, hm.eq] at ht
  simpa using ht

end Writes

section SetDirectives

variable {s : State} {rest : List Event} {x : Nat}

/-- `SETN Nr, x` writes the register as a command would, and answers each of its accesses `Ok` (R72). -/
theorem run_setN {r : NReg} (hs : s.pending = setN r x ++ rest) :
    run 64 s = .next { writeN r (digitsOf 64 x) s with
      pending := rest, responses := s.responses ++ List.replicate 64 .ok } := by
  refine run_writes (put := fun u m => { s with n := s.n.set r u, nWritten := s.nWritten.set r m }) hs
    ⟨s.n.get r, s.nWritten.get r, by simp⟩ fun k u m ps rs => ?_
  rw [hostWrite_addrN]
  simp [writeNDigit]

theorem run_setW {r : WReg} (hs : s.pending = setW r x ++ rest) :
    run 128 s = .next { writeW r (digitsOf 128 x) s with
      pending := rest, responses := s.responses ++ List.replicate 128 .ok } := by
  refine run_writes (put := fun u m => { s with w := s.w.set r u, wWritten := s.wWritten.set r m }) hs
    ⟨s.w.get r, s.wWritten.get r, by simp⟩ fun k u m ps rs => ?_
  rw [hostWrite_addrW]
  simp [writeWDigit]

end SetDirectives

theorem val_digitsOf_narrow {x : Nat} (h : x < 2 ^ 2048) : val (digitsOf 64 x) = x :=
  val_digitsOf_of_lt (by rwa [show 32 * 64 = 2048 from rfl])

theorem val_digitsOf_wide {x : Nat} (h : x < 2 ^ 4096) : val (digitsOf 128 x) = x :=
  val_digitsOf_of_lt (by rwa [show 32 * 128 = 4096 from rfl])

/-- Settles O49: the 64 writes write the register as a whole, with the digits of `x`. -/
theorem setnLoadsTheValue : Obligations.SetnLoadsTheValue := by
  refine fun r x s rest hx hs => ⟨_, run_setN hs, ?value, allWritten_get_set_fill _ r, keepsNExcept_of_set rfl rfl,
    ⟨rfl, rfl⟩, rfl, rfl, rfl, rfl, rfl⟩
  case value => exact (congrArg val (get_writeN r _)).trans (val_digitsOf_narrow hx)

/-- Settles O50: the 128 writes write the register as a whole, with the digits of `x`. -/
theorem setwLoadsTheValue : Obligations.SetwLoadsTheValue := by
  refine fun r x s rest hx hs => ⟨_, run_setW hs, ?value, allWritten_get_set_fill _ r, keepsWExcept_of_set rfl rfl,
    ⟨rfl, rfl⟩, rfl, rfl, rfl, rfl, rfl⟩
  case value => exact (congrArg val (get_writeW r _)).trans (val_digitsOf_wide hx)

/-- Settles O58: the string's value is that of the narrow value it decodes to, whose digits `SETN` writes. -/
theorem setnOfHexString : Obligations.SetnOfHexString := by
  refine fun r str => ⟨fun e => ?failure, fun x hlen hx => ?success⟩
  case failure =>
    cases h : hexDecode str with
    | ok v => simp [setNHex_of_decode r h]
    | error e' => simp [setNHex_of_error r h]
  case success =>
    obtain ⟨v, hdecode, rfl⟩ := exists_hexDecode_of_spells hlen hx
    refine ⟨_, setNHex_of_decode r hdecode, by simp [setN], fun s rest hs => ⟨_, run_setN hs, ?value,
      allWritten_get_set_fill _ r, keepsNExcept_of_set rfl rfl, ⟨rfl, rfl⟩, rfl, rfl, rfl, rfl⟩⟩
    exact congrArg val ((get_writeN r _).trans (digitsOf_val v))

/-! ### Reading a register digit by digit -/

section Reads

variable {s : State} {rest : List Event}

/-- After `i` reads the first `i` digits have been answered, and nothing else has changed. -/
def AfterReads (s : State) (ds : List Digit) (i : Nat) (t : State) : Prop :=
  ∃ pending, t = { s with pending := pending, responses := s.responses ++ (ds.take i).map .okData }

/-- Reading digits that have been written answers them in index order (R43). -/
theorem run_reads {n : Nat} {v : Digits n} {addr : Fin n → Addr}
    (hs : s.pending = (List.finRange n).map (fun k => .read (addr k)) ++ rest)
    (hread : ∀ k ps rs, hostRead (addr k) { s with pending := ps, responses := rs } =
      respond (.okData (v.get k)) { s with pending := ps, responses := rs }) :
    run n s = .next { s with pending := rest, responses := s.responses ++ v.list.map .okData } := by
  have hround : ∀ i : Fin n, Leads (AfterReads s v.list i.val) [.read (addr i)] (AfterReads s v.list (i.val + 1)) := by
    refine fun i => .of_step fun t rest ht ⟨ps, heq⟩ => ?_
    subst heq
    refine ⟨_, (step_cons _ ht).trans (congrArg Host.Outcome.next (hread i rest _)), rfl, rest, ?_⟩
    rw [← List.take_append_getElem (v.size.symm ▸ i.isLt), List.map_append, ← List.append_assoc]
    rfl
  rw [List.map_eq_flatMap] at hs
  obtain ⟨t, ht, hpending, ps, rfl⟩ := Leads.loop hround s rest hs ⟨s.pending, by simp⟩
  obtain rfl : ps = rest := hpending
  rw [List.take_of_length_le v.size.le] at ht
  simpa using ht

/-- `GETN` of a register that has a value answers its digits (R72). -/
theorem run_getN {r : NReg} (hw : allWritten (s.nWritten.get r) = true) (hs : s.pending = getN r ++ rest) :
    run 64 s = .next { s with pending := rest, responses := s.responses ++ (s.n.get r).list.map .okData } :=
  run_reads hs fun k ps rs =>
    hostRead_addrN { s with pending := ps, responses := rs } ((allWritten_iff _).1 hw k)

theorem run_getW {r : WReg} (hw : allWritten (s.wWritten.get r) = true) (hs : s.pending = getW r ++ rest) :
    run 128 s = .next { s with pending := rest, responses := s.responses ++ (s.w.get r).list.map .okData } :=
  run_reads hs fun k ps rs =>
    hostRead_addrW { s with pending := ps, responses := rs } ((allWritten_iff _).1 hw k)

end Reads

/-- Settles O51: each access reads a written digit. -/
theorem getReadsTheDigits : Obligations.GetReadsTheDigits :=
  ⟨fun _ _ _ => run_getN, fun _ _ _ => run_getW⟩

/-- The responses added after `rs`, read as a value. -/
theorem valueRead_drop_append {n : Nat} (rs : List Response) {k : Nat} (hk : rs.length = k) (v : Digits n) :
    valueRead ((rs ++ v.list.map Response.okData).drop k) = some (val v) := by
  rw [List.drop_left' hk, valueRead_digits]

/-- Settles O59: the digits a `GETN` or `GETW` answers make up `val` of the register, which after a `SETN` or `SETW`
is the number loaded. -/
theorem getReadsTheValue : Obligations.GetReadsTheValue := by
  refine ⟨fun r s rest hw hs => ⟨_, run_getN hw hs, valueRead_drop_append _ rfl _⟩,
    fun r s rest hw hs => ⟨_, run_getW hw hs, valueRead_drop_append _ rfl _⟩,
    fun r x s rest hx hs => ⟨_, (run_add 64 64 (run_setN hs)).trans (run_getN (allWritten_get_set_fill _ r) rfl), rfl,
      (valueRead_drop_append _ (by simp) _).trans (congrArg some ?narrow)⟩,
    fun r x s rest hx hs => ⟨_, (run_add 128 128 (run_setW hs)).trans (run_getW (allWritten_get_set_fill _ r) rfl), rfl,
      (valueRead_drop_append _ (by simp) _).trans (congrArg some ?wide)⟩⟩
  case narrow => exact (congrArg val (get_writeN r _)).trans (val_digitsOf_narrow hx)
  case wide => exact (congrArg val (get_writeW r _)).trans (val_digitsOf_wide hx)

end Sys2Proof.Machine
end

section
/-! SUPPORT. Which strings `Decode` rejects and with which error, and where the output of `Encode` begins
(spec/40_hex_codec.md R81-R83, R87). -/

namespace Sys2Proof.Machine

/-! ### The failures of Decode -/

section Failures

variable {s : List Char} {e : CodecError}

theorem spells_eq_none_iff (acc : Nat) : spells acc s = none ↔ ∃ c ∈ s, hexValue c = none := by
  induction s generalizing acc with
  | nil => simp [spells]
  | cons c cs ih =>
    rw [spells, List.exists_mem_cons_iff]
    cases hexValue c with
    | none => simp
    | some x => simpa using ih (16 * acc + x)

theorem hexDecode_of_long (h : 512 < s.length) : hexDecode s = .error .outOfRange := if_pos h

theorem placeChunk_error {chunk : List Char} {i : Fin 64} {v : Narrow} (h : placeChunk chunk i v = .error e) :
    e = .parseError := by
  unfold placeChunk at h
  split at h <;> cases h
  rfl

theorem placeChunks_error {j : Nat} (h : placeChunks s j = .error e) : e = .parseError := by
  induction j with
  | zero => cases h
  | succ j ih =>
    rw [placeChunks] at h
    split at h
    · exact placeChunk_error h
    · cases h
      exact ih ‹_›

/-- Past the length check the only failure is of the parse (R81, R82). -/
theorem hexDecode_error_of_short (hs : s.length ≤ 512) (h : hexDecode s = .error e) : e = .parseError := by
  simp only [hexDecode, if_neg (Nat.not_lt.2 hs)] at h
  split at h
  · split_ifs at h
    exact placeChunk_error h
  · cases h
    exact placeChunks_error ‹_›

theorem hexDecode_eq_outOfRange_iff : hexDecode s = .error .outOfRange ↔ 512 < s.length := by
  refine ⟨fun h => ?_, hexDecode_of_long⟩
  by_contra hs
  cases hexDecode_error_of_short (Nat.le_of_not_lt hs) h

/-- A string within the bound fails to decode when it spells no number. -/
theorem hexDecode_eq_parseError_iff :
    hexDecode s = .error .parseError ↔ s.length ≤ 512 ∧ ∃ c ∈ s, hexValue c = none := by
  by_cases hs : s.length ≤ 512
  · rw [and_iff_right hs, ← spells_eq_none_iff 0]
    cases hd : hexDecode s with
    | ok v => simp [(hexDecode_eq_ok_iff hs).1 hd]
    | error e =>
      rw [hexDecode_error_of_short hs hd, eq_self_iff_true, true_iff, Option.eq_none_iff_forall_ne_some]
      intro x hx
      obtain ⟨v, hv, -⟩ := exists_hexDecode_of_spells hs hx
      simp [hd] at hv
  · simp [hexDecode_of_long (Nat.lt_of_not_le hs), hs]

theorem hexDecode_eq_ok_iff_of_any (v : Narrow) :
    hexDecode s = .ok v ↔ s.length ≤ 512 ∧ spells 0 s = some (val v) := by
  by_cases hs : s.length ≤ 512
  · rw [hexDecode_eq_ok_iff hs, and_iff_right hs]
  · simp [hexDecode_of_long (Nat.lt_of_not_le hs), hs]

end Failures

/-- Settles O54: the length check comes first, and past it a string decodes exactly when it spells a number. -/
theorem decodeHexStrings : Obligations.DecodeHexStrings :=
  fun _ => ⟨hexDecode_eq_outOfRange_iff, hexDecode_eq_parseError_iff, hexDecode_eq_ok_iff_of_any,
    hexDecode_eq_zero (by decide) rfl⟩

/-! ### The first non-zero digit -/

/-- The index of the first non-zero digit, the number of digits if there is none (R83). -/
def firstNonzero {n : Nat} (v : Digits n) : Nat := v.list.findIdx (fun d => !(d == 0))

section FirstNonzero

variable {n : Nat} {v : Digits n}

theorem significantDigits_eq_drop (v : Digits n) : significantDigits v = v.list.drop (firstNonzero v) :=
  List.dropWhile_eq_drop_findIdx_not

theorem length_significantDigits (v : Digits n) : (significantDigits v).length = n - firstNonzero v := by
  rw [significantDigits_eq_drop, List.length_drop, v.size]

theorem firstNonzero_lt (h : val v ≠ 0) : firstNonzero v < n := by
  have hpos := List.length_pos_iff.2 (mt (significantDigits_eq_nil_iff v).1 h)
  rw [length_significantDigits] at hpos
  omega

theorem get_firstNonzero (h : firstNonzero v < n) : v.get ⟨firstNonzero v, h⟩ ≠ 0 := by
  have hlen : firstNonzero v < v.list.length := by rwa [v.size]
  have hfound : (!(v.get ⟨firstNonzero v, h⟩ == 0)) = true := List.findIdx_getElem (w := hlen)
  simpa using hfound

theorem get_of_lt_firstNonzero {j : Fin n} (h : j.val < firstNonzero v) : v.get j = 0 := by
  have hzero : (!(v.get j == 0)) = false := List.not_of_lt_findIdx h
  simpa using hzero

end FirstNonzero

/-- Settles O56: the emitted digits are those from the first non-zero one on. -/
theorem encodeEmitsWholeGroups : Obligations.EncodeEmitsWholeGroups := by
  intro n v hv
  have hlt := firstNonzero_lt hv
  refine ⟨⟨firstNonzero v, hlt⟩, get_firstNonzero hlt, fun j hj => get_of_lt_firstNonzero hj, ?length,
    spells_hexEncode v⟩
  case length => rw [length_hexEncode_of_val_ne_zero hv, length_significantDigits]

end Sys2Proof.Machine
end

section
/-! SUPPORT. The assembler on the lines that `asmText` writes: a line is cut into the fields it was made of, and each
field reads as the operand it names (spec/30_encoding.md R71). -/

namespace Sys2Proof.Machine

/-! ### Cutting a line into its fields -/

/-- In lower case, the character is part of a field and separates none. -/
def isPlain (c : Char) : Bool := c ≠ ',' && !isBlank c

/-- The character starts no comment and separates no fields. -/
def isFieldChar (c : Char) : Bool := c ≠ ';' && isPlain (lower c)

abbrev IsField (f : List Char) : Prop := f.all isFieldChar = true

theorem isField_iff {f : List Char} : IsField f ↔ ∀ c ∈ f, c ≠ ';' ∧ isPlain (lower c) = true := by
  simp [IsField, isFieldChar]

theorem IsField.isPlain {f : List Char} (h : IsField f) : ∀ c ∈ f.map lower, isPlain c = true :=
  List.forall_mem_map.2 fun c hc => (isField_iff.1 h c hc).2

theorem ne_comma_of_isPlain {c : Char} (h : isPlain c = true) : c ≠ ',' := by
  simp only [isPlain, Bool.and_eq_true, decide_eq_true_eq] at h
  obtain ⟨hcomma, -⟩ := h
  exact hcomma

theorem not_isBlank_of_isPlain {c : Char} (h : isPlain c = true) : (!isBlank c) = true := by
  simp only [isPlain, Bool.and_eq_true] at h
  obtain ⟨-, hblank⟩ := h
  exact hblank

section Fields

variable {m op : List Char} {ops : List (List Char)}

theorem lineOf_cons (m op : List Char) (ops : List (List Char)) :
    lineOf m (op :: ops) = m ++ ' ' :: (op ++ ops.flatMap (fun o => ',' :: ' ' :: o)) := by
  simp [lineOf]

/-- A line's separators are the same in either case. -/
theorem map_lower_lineOf (m op : List Char) (ops : List (List Char)) :
    (lineOf m (op :: ops)).map lower = lineOf (m.map lower) (op.map lower :: ops.map (List.map lower)) := by
  have hspace : lower ' ' = ' ' := by decide
  have hcomma : lower ',' = ',' := by decide
  simp [lineOf_cons, List.map_flatMap, List.flatMap_map, hspace, hcomma]

theorem splitCommas_of_ne (h : ∀ c ∈ op, c ≠ ',') : splitCommas op = [op] := by
  induction op with
  | nil => rfl
  | cons c cs ih =>
    obtain ⟨hc, hcs⟩ := List.forall_mem_cons.1 h
    simp [splitCommas, ih hcs]

theorem splitCommas_append (h : ∀ c ∈ op, c ≠ ',') (rest : List Char) :
    splitCommas (op ++ ',' :: rest) = op :: splitCommas rest := by
  induction op with
  | nil => simp [splitCommas]
  | cons c cs ih =>
    obtain ⟨hc, hcs⟩ := List.forall_mem_cons.1 h
    simp [splitCommas, ih hcs]

/-- Splitting at the commas undoes joining with them. -/
theorem splitCommas_join (h : ∀ f ∈ op :: ops, ∀ c ∈ f, c ≠ ',') :
    splitCommas (op ++ ops.flatMap (fun o => ',' :: o)) = op :: ops := by
  induction ops generalizing op with
  | nil => simpa using splitCommas_of_ne (h op List.mem_cons_self)
  | cons o ops ih =>
    obtain ⟨hop, hops⟩ := List.forall_mem_cons.1 h
    rw [List.flatMap_cons, List.cons_append, splitCommas_append hop, ih hops]

theorem filter_not_isBlank_of_forall (h : ∀ c ∈ op, isPlain c = true) : op.filter (fun c => !isBlank c) = op :=
  List.filter_eq_self.2 fun c hc => not_isBlank_of_isPlain (h c hc)

/-- Between the operands only the blanks are white space. -/
theorem filter_not_isBlank_join (h : ∀ f ∈ op :: ops, ∀ c ∈ f, isPlain c = true) :
    (' ' :: (op ++ ops.flatMap (fun o => ',' :: ' ' :: o))).filter (fun c => !isBlank c) =
      op ++ ops.flatMap (fun o => ',' :: o) := by
  have hspace : isBlank ' ' = true := by decide
  have hcomma : isBlank ',' = false := by decide
  obtain ⟨hop, hops⟩ := List.forall_mem_cons.1 h
  have hcut : ops.flatMap (fun o => (',' :: ' ' :: o).filter (fun c => !isBlank c)) =
      ops.flatMap (fun o => ',' :: o) :=
    List.flatMap_congr fun o ho => by simp [hspace, hcomma, filter_not_isBlank_of_forall (hops o ho)]
  rw [List.filter_cons_of_neg (by simp [hspace]), List.filter_append, filter_not_isBlank_of_forall hop,
    List.filter_flatMap]
  exact congrArg (op ++ ·) hcut

/-- The mnemonic ends at the first blank. -/
theorem mnemonic_lineOf (h : ∀ c ∈ m, isPlain c = true) (rest : List Char) :
    (m ++ ' ' :: rest).takeWhile (fun c => !isBlank c) = m ∧
      (m ++ ' ' :: rest).dropWhile (fun c => !isBlank c) = ' ' :: rest := by
  have hspace : isBlank ' ' = true := by decide
  have hm : ∀ c ∈ m, (!isBlank c) = true := fun c hc => not_isBlank_of_isPlain (h c hc)
  rw [List.takeWhile_append_of_pos hm, List.dropWhile_append_of_pos hm]
  simp [hspace]

/-- A line of fields has no comment, and no blank before its mnemonic. -/
theorem code_lineOf (hm : m ≠ []) (hfields : ∀ f ∈ m :: op :: ops, IsField f) :
    (((lineOf m (op :: ops)).takeWhile (fun c => c ≠ ';')).map lower).dropWhile isBlank =
      lineOf (m.map lower) (op.map lower :: ops.map (List.map lower)) := by
  obtain ⟨hmnemonic, hops⟩ := List.forall_mem_cons.1 hfields
  obtain ⟨hop, hops⟩ := List.forall_mem_cons.1 hops
  have hcomment : ∀ c ∈ lineOf m (op :: ops), c ≠ ';' := by
    intro c hc
    simp only [lineOf_cons, List.mem_append, List.mem_cons, List.mem_flatMap] at hc
    obtain hc | rfl | hc | ⟨o, ho, rfl | rfl | hc⟩ := hc
    · exact (isField_iff.1 hmnemonic c hc).1
    · decide
    · exact (isField_iff.1 hop c hc).1
    · decide
    · decide
    · exact (isField_iff.1 (hops o ho) c hc).1
  rw [List.takeWhile_eq_self_iff.2 (by simpa using hcomment), map_lower_lineOf, lineOf_cons]
  obtain ⟨c, cs, rfl⟩ := List.exists_cons_of_ne_nil hm
  have hc : (!isBlank (lower c)) = true := not_isBlank_of_isPlain (isField_iff.1 hmnemonic c List.mem_cons_self).2
  rw [List.map_cons, List.cons_append, List.dropWhile_cons_of_neg (by simpa using hc)]

/-- A line of fields is read as the command that its fields in lower case make. -/
theorem assembleLine_lineOf {i : Instr} (hm : m ≠ []) (hfields : ∀ f ∈ m :: op :: ops, IsField f)
    (hi : asmCommand (m.map lower) (op.map lower :: ops.map (List.map lower)) = some i) :
    assembleLine (lineOf m (op :: ops)) = .command i := by
  obtain ⟨hmnemonic, hops⟩ := List.forall_mem_cons.1 hfields
  have hplain : ∀ f ∈ op.map lower :: ops.map (List.map lower), ∀ c ∈ f, isPlain c = true := by
    rw [← List.map_cons]
    intro f hf
    obtain ⟨g, hg, rfl⟩ := List.mem_map.1 hf
    exact (hops g hg).isPlain
  have hsplit := splitCommas_join fun f hf c hc => ne_comma_of_isPlain (hplain f hf c hc)
  obtain ⟨htake, hdrop⟩ := mnemonic_lineOf hmnemonic.isPlain
    (op.map lower ++ (ops.map (List.map lower)).flatMap (fun o => ',' :: ' ' :: o))
  simp only [assembleLine, code_lineOf hm hfields]
  simp only [lineOf_cons, htake, hdrop, filter_not_isBlank_join hplain, hsplit, hi]
  simp

end Fields

/-! ### Decimal numbers -/

/-- The character of a digit below 10. -/
def decimalDigit (d : Nat) : Char := Char.ofNat ('0'.toNat + d)

section DecimalDigit

variable {d : Nat} (h : d < 10)
include h

theorem lower_decimalDigit : lower (decimalDigit d) = decimalDigit d := by
  revert d; decide

theorem isFieldChar_decimalDigit : isFieldChar (decimalDigit d) = true := by
  revert d; decide

theorem baseDigit_decimalDigit : baseDigit 10 (decimalDigit d) = some d := by
  revert d; decide

theorem decimalDigit_ne_x : decimalDigit d ≠ 'x' := by
  revert d; decide

end DecimalDigit

/-- The digits of a number below 1000, most significant first. -/
def decimalDigits (x : Nat) : List Nat :=
  if x < 10 then [x % 10] else if x < 100 then [x / 10 % 10, x % 10] else [x / 100 % 10, x / 10 % 10, x % 10]

theorem decimal_eq_map (x : Nat) : decimal x = (decimalDigits x).map decimalDigit := by
  unfold decimal decimalDigits
  split_ifs <;> simp [decimalDigit]

theorem lt_ten_of_mem_decimalDigits {x : Nat} : ∀ d ∈ decimalDigits x, d < 10 := by
  unfold decimalDigits
  split_ifs <;> simp <;> omega

/-- Horner's rule on the digits gives the number back. -/
theorem foldl_decimalDigits {x : Nat} (h : x < 1000) : (decimalDigits x).foldl (fun acc d => 10 * acc + d) 0 = x := by
  unfold decimalDigits
  split_ifs <;> simp <;> omega

theorem numeral_map_decimalDigit {ds : List Nat} (h : ∀ d ∈ ds, d < 10) (acc : Nat) :
    numeral 10 acc (ds.map decimalDigit) = some (ds.foldl (fun acc d => 10 * acc + d) acc) := by
  induction ds generalizing acc with
  | nil => rfl
  | cons d ds ih =>
    obtain ⟨hd, hds⟩ := List.forall_mem_cons.1 h
    simp [numeral, baseDigit_decimalDigit hd, ih hds]

/-- Only `0x` begins a hexadecimal number. -/
theorem immediate_eq_numeral {cs : List Char} (hne : cs ≠ []) (hx : ∀ c ∈ cs, c ≠ 'x') :
    immediate cs = numeral 10 0 cs := by
  unfold immediate
  split
  · exact absurd rfl hne
  · exact absurd rfl (hx 'x' (by simp))
  · rfl

theorem map_lower_decimal (x : Nat) : (decimal x).map lower = decimal x := by
  rw [decimal_eq_map, List.map_map]
  exact List.map_congr_left fun d hd => lower_decimalDigit (lt_ten_of_mem_decimalDigits d hd)

theorem immediate_decimal {x : Nat} (h : x < 1000) : immediate (decimal x) = some x := by
  have hdigits := lt_ten_of_mem_decimalDigits (x := x)
  have hne : decimalDigits x ≠ [] := by
    unfold decimalDigits
    split_ifs <;> simp
  rw [decimal_eq_map, immediate_eq_numeral (by simpa using hne)
    (List.forall_mem_map.2 fun d hd => decimalDigit_ne_x (hdigits d hd)), numeral_map_decimalDigit hdigits,
    foldl_decimalDigits h]

/-! ### Reading the fields -/

theorem isField_decimal (x : Nat) : IsField (decimal x) := by
  rw [decimal_eq_map, IsField, List.all_map, List.all_eq_true]
  exact fun d hd => isFieldChar_decimalDigit (lt_ten_of_mem_decimalDigits d hd)

theorem immediateBelow_decimal {n : Nat} (hn : n ≤ 1000) (x : Fin n) :
    immediateBelow n ((decimal x.val).map lower) = some x := by
  simp [immediateBelow, map_lower_decimal, immediate_decimal (x.isLt.trans_le hn)]

theorem isField_nameN (r : NReg) : IsField (regName 'N' r) := isField_decimal r

theorem isField_nameW (r : WReg) : IsField (regName 'W' r) := isField_decimal r

/-- A register's name is the letter of its file and one digit. -/
theorem map_lower_regName (file : Char) (r : Fin 4) :
    (regName file r).map lower = [lower file, decimalDigit r.val] := by
  have hdigit : ∀ r : Fin 4, (decimal r.val).map lower = [decimalDigit r.val] := by decide
  rw [regName, List.map_cons, hdigit]

theorem regDigit_decimalDigit (r : Fin 4) : regDigit (decimalDigit r.val) = some r := by
  revert r; decide

theorem asmN_regName (r : NReg) : asmN ((regName 'N' r).map lower) = some r := by
  rw [map_lower_regName]
  exact regDigit_decimalDigit r

theorem asmW_regName (r : WReg) : asmW ((regName 'W' r).map lower) = some r := by
  rw [map_lower_regName]
  exact regDigit_decimalDigit r

/-- The multiplier digit of `MULD` as R71 writes it. -/
def digitField (r : NReg) (k : Fin 64) : List Char := regName 'N' r ++ '[' :: decimal k.val ++ [']']

theorem isField_digitField (r : NReg) (k : Fin 64) : IsField (digitField r k) := by
  have hopen : isFieldChar '[' = true := by decide
  have hclose : isFieldChar ']' = true := by decide
  simp only [digitField, IsField, List.all_append, List.all_cons, List.all_nil, isField_nameN r, isField_decimal k.val,
    hopen, hclose, Bool.and_self]

/-- The index stands between the brackets. -/
theorem asmDigit_bracket {c : Char} {r : NReg} {cs : List Char} {k : Fin 64} (hr : regDigit c = some r)
    (hk : immediateBelow 64 cs = some k) : asmDigit ('n' :: c :: '[' :: (cs ++ [']'])) = some (r, k) := by
  simp [asmDigit, hr, hk]

theorem asmDigit_digitField (r : NReg) (k : Fin 64) : asmDigit ((digitField r k).map lower) = some (r, k) := by
  have hn : lower 'N' = 'n' := by decide
  have hopen : lower '[' = '[' := by decide
  have hclose : lower ']' = ']' := by decide
  simpa [digitField, map_lower_regName, hn, hopen, hclose] using
    asmDigit_bracket (regDigit_decimalDigit r) (immediateBelow_decimal (by decide) k)

/-! ### The seven lines -/

theorem three_eq_some {α β γ : Type} {f : List Char → Option α} {g : List Char → Option β} {h : List Char → Option γ}
    (mk : α → β → γ → Instr) {x y z : List Char} {a : α} {b : β} {c : γ} (hx : f x = some a) (hy : g y = some b)
    (hz : h z = some c) : three f g h mk [x, y, z] = some (mk a b c) := by
  simp only [three, hx, hy, hz]

theorem asmCommand_cmp {x y : List Char} {a b : NReg} (hx : asmN x = some a) (hy : asmN y = some b) :
    asmCommand ['c', 'm', 'p'] [x, y] = some (.cmp a b) := by
  simp [asmCommand, hx, hy]

/-- A line of a mnemonic and three operands. -/
theorem assembleLine_three {m x y z : List Char} {i : Instr} (hm : m ≠ [] ∧ IsField m) (hx : IsField x)
    (hy : IsField y) (hz : IsField z)
    (hi : asmCommand (m.map lower) [x.map lower, y.map lower, z.map lower] = some i) :
    assembleLine (lineOf m [x, y, z]) = .command i := by
  obtain ⟨hne, hm⟩ := hm
  refine assembleLine_lineOf hne (fun f hf => ?_) hi
  simp only [List.mem_cons, List.not_mem_nil, or_false] at hf
  obtain rfl | rfl | rfl | rfl := hf
  · exact hm
  · exact hx
  · exact hy
  · exact hz

/-- Settles O57: each line is one of fields, and its fields in lower case are those that `asmCommand` takes. -/
theorem assemblerReadsItsSyntax : Obligations.AssemblerReadsItsSyntax := by
  intro i
  cases i with
  | add d a b =>
    exact assembleLine_three (by decide) (isField_nameN d) (isField_nameN a) (isField_nameN b)
      (three_eq_some .add (asmN_regName d) (asmN_regName a) (asmN_regName b))
  | addw d a b =>
    exact assembleLine_three (by decide) (isField_nameW d) (isField_nameW a) (isField_nameW b)
      (three_eq_some .addw (asmW_regName d) (asmW_regName a) (asmW_regName b))
  | sub d a b =>
    exact assembleLine_three (by decide) (isField_nameN d) (isField_nameN a) (isField_nameN b)
      (three_eq_some .sub (asmN_regName d) (asmN_regName a) (asmN_regName b))
  | cmp a b =>
    refine assembleLine_lineOf (by decide) (List.forall_mem_cons.2 ⟨by decide, List.forall_mem_cons.2
      ⟨isField_nameN a, List.forall_mem_cons.2 ⟨isField_nameN b, List.forall_mem_nil _⟩⟩⟩) ?_
    exact asmCommand_cmp (asmN_regName a) (asmN_regName b)
  | muld d a b k =>
    exact assembleLine_three (by decide) (isField_nameW d) (isField_nameN a) (isField_digitField b k)
      (three_eq_some _ (asmW_regName d) (asmN_regName a) (asmDigit_digitField b k))
  | shld d a p =>
    exact assembleLine_three (by decide) (isField_nameW d) (isField_nameW a) (isField_decimal p)
      (three_eq_some .shld (asmW_regName d) (asmW_regName a) (immediateBelow_decimal (by decide) p))
  | mul d a b =>
    exact assembleLine_three (by decide) (isField_nameW d) (isField_nameN a) (isField_nameN b)
      (three_eq_some .mul (asmW_regName d) (asmN_regName a) (asmN_regName b))

end Sys2Proof.Machine
end
